-- ==== Sys2Proof/Config.lean ====
section
/-! DEFINITION. The implementation parameters (00_scope.md R7), this block's values of them, its
identification word (10_state.md R30), and the one free value of the model (70_reset_and_hazards.md R301). -/

namespace Sys2Proof

/-! The widths of 00_scope.md R7 are the arguments of the types: Word.lean and Machine/State.lean write every
type of a timestamp, a wall time, a register word and a register address from these. -/

/-- `TS_W` (00_scope.md R7, R8) -/
@[simp] abbrev Config.tsW : Nat := 64

/-- `WALL_W` (00_scope.md R7) -/
@[simp] abbrev Config.wallW : Nat := 64

/-- register width (00_scope.md R7) -/
@[simp] abbrev Config.regW : Nat := 32

/-- address width, in byte offsets (00_scope.md R7) -/
@[simp] abbrev Config.addrW : Nat := 8

/-- `DATA_BITS`: data bits of a byte record, between one start and one stop bit (00_scope.md R7).  It bounds
`BIT_INDEX`, so it is an argument of that type too. -/
@[simp] abbrev Config.dataBits : Nat := 8

/-- `QUOT_ROUND` (00_scope.md R7, 41_manchester_decoder.md R135). -/
inductive Rounding where
  | floor
  | trunc
  deriving DecidableEq, Repr

/-- The parameters of 00_scope.md R7 that are no width of a type. -/
structure Params where
  /-- `SAMPLE_N` -/
  sampleN : Nat
  /-- `SENS_NUM` -/
  sensNum : Nat
  /-- `SENS_DEN` -/
  sensDen : Nat
  /-- `CLASS_NUM` -/
  classNum : Nat
  /-- `CLASS_DEN` -/
  classDen : Nat
  /-- `QUOT_ROUND` -/
  quotRound : Rounding
  /-- `SYNC_LEN` -/
  syncLen : Nat
  /-- `DATA_BITS` -/
  dataBits : Nat
  /-- `TICK`, in nanoseconds per timestamp unit.  All decoder arithmetic is on ticks (00_scope.md R8), so no
  operation reads it: it says what the number in a timestamp means. -/
  tick : Nat
  /-- `FRAME_CAP` -/
  frameCap : Nat
  /-- `FRAME_LEN` -/
  frameLen : Nat
  /-- `DEVICE_ID` -/
  deviceId : BitVec 8
  /-- `TEMP_MIN_RAW`, tenths of a degree -/
  tempMinRaw : Int
  /-- `TEMP_MAX_RAW`, tenths of a degree -/
  tempMaxRaw : Int
  /-- `OUT1_BIT` of byte 9 -/
  out1Bit : Nat
  /-- `OUT2_BIT` of byte 9 -/
  out2Bit : Nat
  deriving DecidableEq, Repr

/-- The values 00_scope.md R7 gives for this hardware. -/
def Config.dlrx : Params where
  sampleN := 500
  sensNum := 6
  sensDen := 10
  classNum := 3
  classDen := 2
  quotRound := .floor
  syncLen := 16
  dataBits := Config.dataBits
  tick := 1
  frameCap := 16
  frameLen := 10
  deviceId := 0x10#8
  tempMinRaw := -500
  tempMaxRaw := 3000
  out1Bit := 5
  out2Bit := 6

/-- The constant of the `ID` register (10_state.md R30). -/
def Config.idValue : BitVec Config.regW := 0x444C4201

/-- FREE VALUE (log entry 2).  When an edge-port word and a host access are offered together, the n-th
such choice performs the edge-port word first if `edgeFirst n`: "in an order it does not specify.
A model must allow either order" (70_reset_and_hazards.md R301). -/
opaque Config.edgeFirst : Nat → Bool

end Sys2Proof
end

