-- ==== Sys2Proof/Word.lean ====
section
/-! DEFINITION. The word types the spec names (00_scope.md R6, R8, R9), each of the width its parameter gives
(00_scope.md R7). -/

namespace Sys2Proof

/-- One byte record of the bus, "an 8-bit value" (00_scope.md R12), and one entry of `BUF` and `RAW`
(10_state.md R49, R50). -/
abbrev Byte := BitVec 8

/-- A timestamp or a duration in ticks of 1 ns, `TS_W` bits (00_scope.md R8). -/
abbrev Tick := BitVec Config.tsW

/-- One word of the host register space (20_memory.md R80). -/
abbrev RegWord := BitVec Config.regW

/-- The number of a word of the register space, `HOST_ADDR` less its two low bits (20_memory.md R80, R85). -/
abbrev WordNumber := BitVec (Config.addrW - 2)

/-- `WALL_TIME` and `SNAP_TS`, `WALL_W` bits (43_uvr42_parser.md R208; 10_state.md R53). -/
abbrev WallTime := BitVec Config.wallW

/-- A reference time, one bit wider than a timestamp and two's complement (10_state.md R43). -/
abbrev RefTime := BitVec (Config.tsW + 1)

/-- `{EDGE_KIND[1:0], EDGE_TS}`, 66 bits (30_encoding.md R100). -/
abbrev EdgeWord := BitVec (2 + Config.tsW)

/-- `{HOST_WE, HOST_ADDR, HOST_WDATA}`, 41 bits (30_encoding.md R105). -/
abbrev HostWord := BitVec (1 + Config.addrW + Config.regW)

end Sys2Proof
end

