-- ==== Sys2Proof/Syntax.lean ====
section
/-! DEFINITION. The transaction kinds and symbols of spec/opcode_table.json, one constructor a row, and
the words the ports carry (30_encoding.md R100, R102, R105). -/

namespace Sys2Proof

/-- The rows of spec/opcode_table.json.  Only the bits the table gives a name are operands: the bits it
marks `x` are ignored by the block (30_encoding.md R101, R105, R106; 20_memory.md R85). -/
inductive Instr where
  /-- `FE`: falling edge at `EDGE_TS` (30_encoding.md R100). -/
  | fe (ts : Tick)
  /-- `RE`: rising edge at `EDGE_TS` (30_encoding.md R100). -/
  | re (ts : Tick)
  /-- `DROP`: drop marker (30_encoding.md R100). -/
  | drop
  /-- `RSVD.EDGE`: the reserved edge kind (30_encoding.md R100, R115). -/
  | rsvdEdge
  /-- `SYM.LOW` (30_encoding.md R102). -/
  | symLow
  /-- `SYM.HIGH` (30_encoding.md R102). -/
  | symHigh
  /-- `SYM.INVALID` (30_encoding.md R102). -/
  | symInvalid
  /-- `SYM.RSVD`: the code that is never produced (30_encoding.md R104). -/
  | symRsvd
  /-- `RD`: host read of the word `HOST_ADDR[7:2]` (44_host_interface.md R231). -/
  | rd (a : WordNumber)
  /-- `WR.CTRL` of `HOST_WDATA[2:0]` (44_host_interface.md R233). -/
  | wrCtrl (d : BitVec 3)
  /-- `WR.CMD.RESTART`: `CMD` written with bit 0 set (44_host_interface.md R235, R237). -/
  | wrCmdRestart
  /-- `WR.CMD.NOP`: `CMD` written with bit 0 clear (44_host_interface.md R235). -/
  | wrCmdNop
  /-- `WR.STATUS.ACK` of `HOST_WDATA[12:8]` (44_host_interface.md R234). -/
  | wrStatusAck (e : BitVec 5)
  /-- `WR.OTHER`: a write to the word `HOST_ADDR[7:2]`, none of the three above (44_host_interface.md R236). -/
  | wrOther (a : WordNumber)
  deriving DecidableEq, Repr

/-- The three places a word can be presented: the edge port, the host register port, and (to drive the
framer alone, 30_encoding.md R104) the symbol link from the decoder to the framer. -/
inductive Port where
  | edge
  | host
  | sym
  deriving DecidableEq, Repr

/-- A word presented at a port, in its fixed format (30_encoding.md R116). -/
inductive PortWord where
  /-- `{EDGE_KIND[1:0], EDGE_TS[63:0]}` (30_encoding.md R100) -/
  | edge (w : EdgeWord)
  /-- `{HOST_WE, HOST_ADDR[7:0], HOST_WDATA[31:0]}` (30_encoding.md R105) -/
  | host (w : HostWord)
  /-- a symbol code (30_encoding.md R102) -/
  | sym (c : BitVec 2)
  deriving DecidableEq, Repr

end Sys2Proof
end

