-- ==== Sys2Proof/Machine/State.lean ====
section
/-! DEFINITION. The state of the block as 10_state.md lists it, the ports of 00_scope.md R6, the reasons a
step can stop, and the state right after reset (70_reset_and_hazards.md R290). -/

namespace Sys2Proof.Machine

/-- `DSTATE` (10_state.md R34); the value 3 is never written and has no name here (log entry 10). -/
inductive DState where
  | discoverClock
  | synchronizing
  | synchronized
  deriving DecidableEq, Repr

/-- `FSTATE` (10_state.md R45). -/
inductive FState where
  | awaitingSync
  | receiving
  deriving DecidableEq, Repr

/-- `RES_CODE` (30_encoding.md R107); codes 5 to 7 are never written and have no name here (log entry 10). -/
inductive ResCode where
  | none
  | ok
  | size
  | device
  | temp
  deriving DecidableEq, Repr

/-- The symbols of 30_encoding.md R102. -/
inductive Symbol where
  | low
  | high
  | invalid
  deriving DecidableEq, Repr

/-- The polarity of an edge (30_encoding.md R100). -/
inductive Polarity where
  | falling
  | rising
  deriving DecidableEq, Repr

/-- Decoder state (10_state.md section 2, R34 to R44). -/
structure Decoder where
  /-- `DSTATE` -/
  dstate : DState
  /-- `SAMPLES[0..SAMPLE_N-1]` -/
  samples : List Tick
  /-- `SAMPLE_CNT` -/
  sampleCnt : BitVec 16
  /-- `DC_PREV_VALID` -/
  dcPrevValid : Bool
  /-- `LAST_TS` -/
  lastTs : Tick
  /-- `LAST_TS_VALID` -/
  lastTsValid : Bool
  /-- `HALF_T` -/
  halfT : Tick
  /-- `SENS` -/
  sens : Tick
  /-- `FULL_EST` -/
  fullEst : Tick
  /-- `CAL_VALID` -/
  calValid : Bool
  /-- `REF`, two's complement -/
  ref : RefTime
  /-- `REF_VALID` -/
  refValid : Bool
  /-- `LAST` -/
  last : BitVec 2
  deriving DecidableEq, Repr

/-- Framer state (10_state.md section 3, R45 to R49). -/
structure Framer where
  /-- `FSTATE` -/
  fstate : FState
  /-- `SYNC_CNT` -/
  syncCnt : BitVec 8
  /-- `BIT_INDEX`, from 0 to the stop position `DATA_BITS` + 1 = 9 (log entry 10) -/
  bitIndex : Fin (Config.dataBits + 2)
  /-- `SHIFT` -/
  shift : Byte
  /-- `BUF[0..FRAME_CAP-1]` -/
  buf : List Byte
  /-- `BUF_LEN` -/
  bufLen : BitVec 8
  deriving DecidableEq, Repr

/-- The latest-frame slot (10_state.md R50, R51). -/
structure RawSlot where
  /-- `RAW[0..FRAME_CAP-1]` -/
  raw : List Byte
  /-- `RAW_LEN` -/
  rawLen : BitVec 8
  /-- `RAW_SEQ` -/
  rawSeq : BitVec 32
  deriving DecidableEq, Repr

/-- The snapshot (10_state.md R53, R54). -/
structure Snapshot where
  /-- `SNAP_VALID` -/
  valid : Bool
  /-- `SNAP_T1` -/
  t1 : BitVec 16
  /-- `SNAP_T2` -/
  t2 : BitVec 16
  /-- `SNAP_T3` -/
  t3 : BitVec 16
  /-- `SNAP_T4` -/
  t4 : BitVec 16
  /-- `SNAP_OUT1` -/
  out1 : Bool
  /-- `SNAP_OUT2` -/
  out2 : Bool
  /-- `SNAP_TS` -/
  ts : WallTime
  /-- `SNAP_SEQ` -/
  seq : BitVec 32
  deriving DecidableEq, Repr

/-- The result of the most recent parse (10_state.md R55). -/
structure Result where
  /-- `RES_CODE` -/
  code : ResCode
  /-- `RES_SEQ` -/
  seq : BitVec 32
  deriving DecidableEq, Repr

/-- The sticky flags (10_state.md R52, R54, R56). -/
structure Flags where
  /-- `RAW_READY` -/
  rawReady : Bool
  /-- `RAW_OVERRUN` -/
  rawOverrun : Bool
  /-- `SNAP_NEW` -/
  snapNew : Bool
  /-- `ERR_NEW` -/
  errNew : Bool
  /-- `INERR` -/
  inErr : Bool
  deriving DecidableEq, Repr

/-- The eight event counters (10_state.md R57). -/
structure Counters where
  /-- `CNT_DROP` -/
  drop : BitVec 32
  /-- `CNT_INVALID` -/
  invalid : BitVec 32
  /-- `CNT_FRAMING` -/
  framing : BitVec 32
  /-- `CNT_FRAMES` -/
  frames : BitVec 32
  /-- `CNT_OK` -/
  ok : BitVec 32
  /-- `CNT_SIZE` -/
  size : BitVec 32
  /-- `CNT_DEVICE` -/
  device : BitVec 32
  /-- `CNT_TEMP` -/
  temp : BitVec 32
  deriving DecidableEq, Repr

/-- What the output ports showed for the step just performed (00_scope.md R6).  `symTap` is `SYM_VALID`
with `SYM_OUT` (30_encoding.md R103); `hostRdata` is present when a read completed.  The spec gives
`SYM_OUT` and `HOST_RDATA` no value at other times and neither does the model (log entry 7). -/
structure Outputs where
  /-- `EDGE_READY`: the step accepted an edge-port word -/
  edgeReady : Bool
  /-- `HOST_READY`: the step completed a host access -/
  hostReady : Bool
  /-- `SYM_VALID` and `SYM_OUT` -/
  symTap : Option (BitVec 2)
  /-- `HOST_RDATA` -/
  hostRdata : Option RegWord
  deriving DecidableEq, Repr

/-- What the outside world does at the ports (log entry 1). -/
inductive Input where
  /-- `RST_N` goes to this level (70_reset_and_hazards.md R290). -/
  | rstN (level : Bool)
  /-- `WALL_TIME` is driven to this value from now on; not a transaction (30_encoding.md R117). -/
  | wall (t : WallTime)
  /-- one word is offered -/
  | word (w : PortWord)
  /-- an edge-port word and a host access are offered together (70_reset_and_hazards.md R301) -/
  | both (e : EdgeWord) (h : HostWord)
  deriving DecidableEq, Repr

/-- The input side of the ports: levels, what will be offered, in order (log entry 1), and the number of
free choices the port arbiter has made (log entry 2). -/
structure Env where
  /-- `RST_N` -/
  rstN : Bool
  /-- `WALL_TIME` -/
  wallTime : WallTime
  /-- the schedule of port inputs, next one first -/
  inputs : List Input
  /-- argument of the free value `Config.edgeFirst` -/
  choices : Nat
  deriving DecidableEq, Repr

/-- The whole machine. -/
structure State where
  /-- Manchester decoder -/
  dec : Decoder
  /-- DL-bus framer -/
  frm : Framer
  /-- latest-frame slot -/
  rawSlot : RawSlot
  /-- last decoded frame -/
  snap : Snapshot
  /-- most recent parse -/
  res : Result
  /-- sticky flags -/
  flags : Flags
  /-- event counters -/
  cnt : Counters
  /-- `CTRL[2:0]` = `IE_ERR`, `IE_SNAP`, `IE_RAW` (10_state.md R58) -/
  ctrl : BitVec 3
  /-- output ports -/
  out : Outputs
  /-- input ports -/
  env : Env
  deriving DecidableEq, Repr

/-- Reasons the machine stops with a fault: NONE.  No transaction faults: "no address, value or access
order faults" (44_host_interface.md R230), and an error event "does not stop the transaction ... A model
must not add a trap mechanism" (60_exceptions.md R260).  Log entry 11. -/
inductive Fault
  deriving DecidableEq, Repr

/-- Reasons a word gets no meaning. -/
inductive Refusal where
  /-- Raised by `exec`'s arm of a row that has no meaning yet; no arm is left that raises it.  Safe. -/
  | notModelled (mnemonic : String)
  /-- Raised by `SYM.RSVD`: "A model that drives the framer alone, without the decoder, must refuse code
  `11` rather than give it a meaning" (30_encoding.md R104).  Safe. -/
  | symCodeReserved
  deriving DecidableEq, Repr

/-- No transaction, no pulse: every output strobe low (70_reset_and_hazards.md R290: `SYM_VALID` = 0,
`EDGE_READY` = 0, `HOST_READY` = 0). -/
def Outputs.silent : Outputs :=
  { edgeReady := false, hostReady := false, symTap := none, hostRdata := none }

/-- Every element at the value of 70_reset_and_hazards.md R290, with as many samples and frame bytes as the
parameters say.  `SAMPLES` and `BUF` are unspecified
there; 0 is the model's choice (log entries 5 and 6), as are `wallTime`, `inputs` and `choices`, which
are no elements of the block (log entries 4, 1, 2). -/
def State.resetOf (p : Params) : State where
  dec :=
    { dstate := .discoverClock, samples := List.replicate p.sampleN 0, sampleCnt := 0, dcPrevValid := false,
      lastTs := 0, lastTsValid := false, halfT := 0, sens := 0, fullEst := 0, calValid := false,
      ref := 0, refValid := false, last := 0 }
  frm :=
    { fstate := .awaitingSync, syncCnt := 0, bitIndex := 0, shift := 0, buf := List.replicate p.frameCap 0,
      bufLen := 0 }
  rawSlot := { raw := List.replicate p.frameCap 0, rawLen := 0, rawSeq := 0 }
  snap :=
    { valid := false, t1 := 0, t2 := 0, t3 := 0, t4 := 0, out1 := false, out2 := false, ts := 0, seq := 0 }
  res := { code := .none, seq := 0 }
  flags := { rawReady := false, rawOverrun := false, snapNew := false, errNew := false, inErr := false }
  cnt :=
    { drop := 0, invalid := 0, framing := 0, frames := 0, ok := 0, size := 0, device := 0, temp := 0 }
  ctrl := 0
  out := Outputs.silent
  env := { rstN := true, wallTime := 0, inputs := [], choices := 0 }

/-- This block right after reset: `State.resetOf` with the values of 00_scope.md R7. -/
def State.reset : State := State.resetOf Config.dlrx

end Sys2Proof.Machine
end

