-- ==== Sys2Proof/Machine/Operands.lean ====
section
/-! DEFINITION. The values operations compute from their operands: saturating counts, symbol codes, the
interval class, temperatures and outputs of a raw frame, and the packing of register words. -/

namespace Sys2Proof.Machine

/-- `sat_255(v + 1)` on an 8-bit count (00_scope.md R10; 10_state.md R46, R49). -/
def satSucc (v : BitVec 8) : BitVec 8 :=
  BitVec.ofNat 8 (min (v.toNat + 1) 255)

/-- The code of a symbol on `SYM_OUT` (30_encoding.md R102). -/
def Symbol.code : Symbol → BitVec 2
  | .low => 0b00
  | .high => 0b01
  | .invalid => 0b10

/-- The bit an emitting edge carries: Falling is `High`, Rising is `Low` (41_manchester_decoder.md R138). -/
def Polarity.symbol : Polarity → Symbol
  | .falling => .high
  | .rising => .low

/-- `QUOT(a, b)` (41_manchester_decoder.md R135; 00_scope.md R10).  With b = 0, which no reachable state
presents, both are 0 (log entry 12). -/
def quot (r : Rounding) (a b : Int) : Int :=
  match r with
  | .floor => a.fdiv b
  | .trunc => a.tdiv b

/-- `Q(e) = QUOT(e - SENS, HALF_T) + 1` (41_manchester_decoder.md R135). -/
def intervalClass (p : Params) (sens halfT : Tick) (e : Int) : Int :=
  quot p.quotRound (e - sens.toNat) halfT.toNat + 1

/-- `ts - REF`, exact (41_manchester_decoder.md R136, R137, R141). -/
def elapsed (ts : Tick) (ref : RefTime) : Int :=
  (ts.toNat : Int) - ref.toInt

/-- `REF <- ts` (41_manchester_decoder.md R131, R136, R137). -/
def refAt (ts : Tick) : RefTime :=
  BitVec.ofInt (Config.tsW + 1) ts.toNat

/-- `REF <- ts - HALF_T`, possibly negative (10_state.md R43; 41_manchester_decoder.md R136, R137). -/
def refBefore (ts halfT : Tick) : RefTime :=
  BitVec.ofInt (Config.tsW + 1) ((ts.toNat : Int) - halfT.toNat)

/-- The acceptance table of `Synchronized` (41_manchester_decoder.md R137). -/
def accepts (i : Int) (last : BitVec 2) : Bool :=
  (i == 1 && last == 2#2) || ((i == 2 || i == 3) && last != 2#2)

/-- Byte j of a raw frame (10_state.md R50). -/
def rawByte (raw : List Byte) (j : Nat) : Byte :=
  raw.getD j 0#8

/-- `RAW[2i] << 8 | RAW[2i-1]`, the 16 bits of temperature i (43_uvr42_parser.md R203; 30_encoding.md R111). -/
def tempBits (raw : List Byte) (i : Nat) : BitVec 16 :=
  rawByte raw (2 * i) ++ rawByte raw (2 * i - 1)

/-- `sext_16` (00_scope.md R10; 30_encoding.md R113). -/
def sext16 (v : BitVec 16) : Int :=
  if v.getLsbD 15 then (v.toNat : Int) - 65536 else v.toNat

/-- The closed range of the validator (43_uvr42_parser.md R206). -/
def tempInRange (p : Params) (r : Int) : Bool :=
  p.tempMinRaw ≤ r && r ≤ p.tempMaxRaw

/-- An output bit of the flags byte, byte 9 (43_uvr42_parser.md R205; 30_encoding.md R112). -/
def outBit (raw : List Byte) (bit : Nat) : Bool :=
  (rawByte raw 9).getLsbD bit

/-- A register word of fields that take its low bits: 0 above them, whatever the register width
(10_state.md R58 to R65; 00_scope.md R7). -/
def toWord {n : Nat} (v : BitVec n) : RegWord := v.setWidth Config.regW

/-- The low word of a two-word value (20_memory.md R82). -/
def lowWord {n : Nat} (v : BitVec n) : RegWord := v.extractLsb' 0 Config.regW

/-- The high word of a two-word value (20_memory.md R82). -/
def highWord {n : Nat} (v : BitVec n) : RegWord := v.extractLsb' Config.regW Config.regW

/-- `RAW_DATAk`: `RAW[4k]` in bits [7:0] through `RAW[4k+3]` in bits [31:24] (10_state.md R50). -/
def rawDataWord (raw : List Byte) (k : Nat) : RegWord :=
  toWord
    (rawByte raw (4 * k + 3) ++ rawByte raw (4 * k + 2) ++ rawByte raw (4 * k + 1) ++ rawByte raw (4 * k))

/-- `FRAMER` as read (10_state.md R63). -/
def Framer.view (f : Framer) : RegWord :=
  toWord (f.bufLen ++ f.shift ++ 0#4 ++ BitVec.ofNat 4 f.bitIndex.val ++ f.syncCnt)

/-- `DECODER` as read (10_state.md R64). -/
def Decoder.view (d : Decoder) : RegWord :=
  toWord (BitVec.ofBool d.dcPrevValid ++ BitVec.ofBool d.refValid ++ d.last)

/-- `SNAP_FLAGS` as read (10_state.md R53). -/
def Snapshot.flagsView (n : Snapshot) : RegWord :=
  toWord (BitVec.ofBool n.out2 ++ BitVec.ofBool n.out1 ++ BitVec.ofBool n.valid)

end Sys2Proof.Machine
end

