-- ==== Sys2Proof/Machine/Flags.lean ====
section
/-! DEFINITION. The sticky flags, the interrupt line and the `STATUS` word (10_state.md R33, R52 to R58,
R62; 60_exceptions.md R260, R270; 44_host_interface.md R233, R234). -/

namespace Sys2Proof.Machine

/-- `CTRL.IE_RAW` (10_state.md R58) -/
def State.ieRaw (s : State) : Bool := s.ctrl.getLsbD 0

/-- `CTRL.IE_SNAP` (10_state.md R58) -/
def State.ieSnap (s : State) : Bool := s.ctrl.getLsbD 1

/-- `CTRL.IE_ERR` (10_state.md R58) -/
def State.ieErr (s : State) : Bool := s.ctrl.getLsbD 2

/-- The interrupt output, a function of the current state (60_exceptions.md R270; 10_state.md R69). -/
def State.irq (s : State) : Bool :=
  (s.flags.rawReady && s.ieRaw) || (s.flags.snapNew && s.ieSnap)
    || ((s.flags.errNew || s.flags.inErr) && s.ieErr)

/-- `DSTATE` in two bits (10_state.md R34). -/
def DState.code : DState → BitVec 2
  | .discoverClock => 0
  | .synchronizing => 1
  | .synchronized => 2

/-- `FSTATE` in one bit (10_state.md R45). -/
def FState.code : FState → BitVec 1
  | .awaitingSync => 0
  | .receiving => 1

/-- `RES_CODE` in three bits (30_encoding.md R107). -/
def ResCode.code : ResCode → BitVec 3
  | .none => 0
  | .ok => 1
  | .size => 2
  | .device => 3
  | .temp => 4

/-- The `STATUS` register as read (10_state.md R62). -/
def State.statusWord (s : State) : RegWord :=
  toWord (BitVec.ofBool s.flags.inErr ++ BitVec.ofBool s.flags.errNew ++ BitVec.ofBool s.flags.snapNew
    ++ BitVec.ofBool s.flags.rawOverrun ++ BitVec.ofBool s.flags.rawReady ++ 0#3
    ++ BitVec.ofBool s.irq ++ BitVec.ofBool s.dec.calValid ++ s.frm.fstate.code ++ s.dec.dstate.code)

/-- `raise E`: sets `ERR_NEW` and nothing more (60_exceptions.md R260).  This is the block's one way to
report an event; there is no trap entry (60_exceptions.md R272). -/
def raiseEvent (s : State) : State :=
  { s with flags := { s.flags with errNew := true } }

/-- The input-protocol error's flag (41_manchester_decoder.md R130; 10_state.md R56). -/
def setInErr (s : State) : State :=
  { s with flags := { s.flags with inErr := true } }

/-- `StatusWrite`, write 1 to clear; bit k of `e` is `HOST_WDATA[8+k]` (44_host_interface.md R234).
Acknowledging "is the only return" and restores nothing (60_exceptions.md R273). -/
def statusWrite (e : BitVec 5) (s : State) : State :=
  { s with
    flags :=
      { rawReady := s.flags.rawReady && !e.getLsbD 0
        rawOverrun := s.flags.rawOverrun && !e.getLsbD 1
        snapNew := s.flags.snapNew && !e.getLsbD 2
        errNew := s.flags.errNew && !e.getLsbD 3
        inErr := s.flags.inErr && !e.getLsbD 4 } }

/-- `CtrlWrite`: `CTRL[2:0] <- d[2:0]` (44_host_interface.md R233). -/
def ctrlWrite (d : BitVec 3) (s : State) : State :=
  { s with ctrl := d }

end Sys2Proof.Machine
end

