-- ==== Sys2Proof/Machine/Ops.lean ====
section
/-! DEFINITION. The shared operations over the state: opening a transaction at a port, the register space,
restart and reset (20_memory.md, 44_host_interface.md, 70_reset_and_hazards.md).  The block takes no
exception (60_exceptions.md R272); what it does instead, `raiseEvent`, and the acknowledgement,
`statusWrite`, stand in Machine/Flags.lean. -/

namespace Sys2Proof.Machine

/-- No transaction is performed in this step. -/
def quiet (s : State) : State :=
  { s with out := Outputs.silent }

/-- An edge-port transfer: `EDGE_READY`, and no symbol until one is emitted (30_encoding.md R100, R103). -/
def beginEdge (s : State) : State :=
  { s with out := { Outputs.silent with edgeReady := true } }

/-- A host access completes (20_memory.md R80). -/
def beginHost (s : State) : State :=
  { s with out := { Outputs.silent with hostReady := true } }

/-- The word a read at offset `a & 0xFC` returns, `a = 4 * n`, by the map of 20_memory.md R84
(44_host_interface.md R231; 10_state.md R30, R50 to R66).  Reserved offsets and `CMD` read 0. -/
def regRead (n : WordNumber) (s : State) : RegWord :=
  match 4 * n.toNat with
  | 0x00 => Config.idValue
  | 0x04 => toWord s.ctrl
  | 0x08 => 0
  | 0x0C => s.statusWord
  | 0x10 => toWord s.dec.sampleCnt
  | 0x14 => lowWord s.dec.halfT
  | 0x18 => highWord s.dec.halfT
  | 0x1C => lowWord s.dec.sens
  | 0x20 => highWord s.dec.sens
  | 0x24 => lowWord s.dec.fullEst
  | 0x28 => highWord s.dec.fullEst
  | 0x2C => s.frm.view
  | 0x30 => s.dec.view
  | 0x40 => toWord s.rawSlot.rawSeq
  | 0x44 => toWord s.rawSlot.rawLen
  | 0x48 => rawDataWord s.rawSlot.raw 0
  | 0x4C => rawDataWord s.rawSlot.raw 1
  | 0x50 => rawDataWord s.rawSlot.raw 2
  | 0x54 => rawDataWord s.rawSlot.raw 3
  | 0x60 => toWord s.snap.seq
  | 0x64 => s.snap.flagsView
  | 0x68 => toWord (s.snap.t2 ++ s.snap.t1)
  | 0x6C => toWord (s.snap.t4 ++ s.snap.t3)
  | 0x70 => lowWord s.snap.ts
  | 0x74 => highWord s.snap.ts
  | 0x78 => toWord s.res.code.code
  | 0x7C => toWord s.res.seq
  | 0x80 => toWord s.cnt.drop
  | 0x84 => toWord s.cnt.invalid
  | 0x88 => toWord s.cnt.framing
  | 0x8C => toWord s.cnt.frames
  | 0x90 => toWord s.cnt.ok
  | 0x94 => toWord s.cnt.size
  | 0x98 => toWord s.cnt.device
  | 0x9C => toWord s.cnt.temp
  | _ => 0

/-- A completed read shows its word on `HOST_RDATA` and changes nothing else (20_memory.md R80, R86). -/
def hostRead (n : WordNumber) (s : State) : State :=
  { s with out := { Outputs.silent with hostReady := true, hostRdata := some (regRead n s) } }

/-- `Restart()` (44_host_interface.md R237). -/
def restart (s : State) : State :=
  { s with
    dec :=
      { s.dec with
        dstate := .discoverClock, sampleCnt := 0, dcPrevValid := false, refValid := false, last := 0 }
    frm := { s.frm with fstate := .awaitingSync, syncCnt := 0, bitIndex := 0, bufLen := 0 } }

/-- `RegWrite(a, d)` with its dispatch, a = 4 * n (44_host_interface.md R232, R235, R236).  The decoder
makes the same choice on the word (30_encoding.md R114), so no meaning calls this. -/
def regWrite (n : WordNumber) (d : RegWord) (s : State) : State :=
  match 4 * n.toNat with
  | 0x04 => ctrlWrite (d.extractLsb' 0 3) s
  | 0x0C => statusWrite (d.extractLsb' 8 5) s
  | 0x08 => if d.getLsbD 0 then restart s else s
  | _ => s

/-- Every element of the block at its reset value; the input side is the outside's and stays
(70_reset_and_hazards.md R290, R291). -/
def resetElements (p : Params) (s : State) : State :=
  { State.resetOf p with env := s.env }

/-- `RST_N` goes to a level: on falling the elements are reset, and on rising they are found so
(70_reset_and_hazards.md R290; log entry 3).  A level that is already there changes nothing. -/
def driveRstN (level : Bool) (s : State) : State :=
  if level == s.env.rstN then quiet s
  else resetElements Config.dlrx { s with env := { s.env with rstN := level } }

/-- `WALL_TIME` is driven (43_uvr42_parser.md R208; 30_encoding.md R117). -/
def driveWall (t : WallTime) (s : State) : State :=
  { quiet s with env := { s.env with wallTime := t } }

end Sys2Proof.Machine
end

