-- ==== Sys2Proof/Machine/Parser.lean ====
section
/-! DEFINITION. The UVR42 parser and range validator (43_uvr42_parser.md). -/

namespace Sys2Proof.Machine

/-- The four temperatures of a raw frame, as numbers (43_uvr42_parser.md R203). -/
def temperatures (raw : List Byte) : List Int :=
  [1, 2, 3, 4].map fun i => sext16 (tempBits raw i)

/-- The result of the checks, in their order: size, device, range (43_uvr42_parser.md R200, R201, R202, R206). -/
def parseCode (p : Params) (slot : RawSlot) : ResCode :=
  if slot.rawLen.toNat ≠ p.frameLen then .size
  else if rawByte slot.raw 0 ≠ p.deviceId then .device
  else if (temperatures slot.raw).all (tempInRange p) then .ok
  else .temp

/-- `Publish` (43_uvr42_parser.md R207, R208). -/
def publish (p : Params) (s : State) : State :=
  let raw := s.rawSlot.raw
  { s with
    snap :=
      { valid := true
        t1 := tempBits raw 1
        t2 := tempBits raw 2
        t3 := tempBits raw 3
        t4 := tempBits raw 4
        out1 := outBit raw p.out1Bit
        out2 := outBit raw p.out2Bit
        ts := s.env.wallTime
        seq := s.snap.seq + 1 }
    flags := { s.flags with snapNew := true }
    cnt := { s.cnt with ok := s.cnt.ok + 1 } }

/-- `Reject(code)`: one counter and the raised event; the snapshot stays (43_uvr42_parser.md R209). -/
def reject (code : ResCode) (s : State) : State :=
  match code with
  | .size => raiseEvent { s with cnt := { s.cnt with size := s.cnt.size + 1 } }
  | .device => raiseEvent { s with cnt := { s.cnt with device := s.cnt.device + 1 } }
  | .temp => raiseEvent { s with cnt := { s.cnt with temp := s.cnt.temp + 1 } }
  | .none => s
  | .ok => s

/-- `Parse()` of the frame in the raw slot (43_uvr42_parser.md R200). -/
def parse (p : Params) (s : State) : State :=
  let code := parseCode p s.rawSlot
  let s1 := { s with res := { code := code, seq := s.res.seq + 1 } }
  if code = .ok then publish p s1 else reject code s1

end Sys2Proof.Machine
end

