-- ==== Sys2Proof/Machine/FramerOps.lean ====
section
/-! DEFINITION. The DL-bus framer (42_dlbus_framer.md). -/

namespace Sys2Proof.Machine

/-- `AwaitSync(sym)` (42_dlbus_framer.md R171). -/
def awaitSync (p : Params) (y : Symbol) (s : State) : State :=
  match y with
  | .high => { s with frm := { s.frm with syncCnt := satSucc s.frm.syncCnt } }
  | .invalid => { s with frm := { s.frm with syncCnt := 0 } }
  | .low =>
    if p.syncLen ≤ s.frm.syncCnt.toNat then
      { s with
        frm := { s.frm with fstate := .receiving, bufLen := 0, shift := 0, bitIndex := 1, syncCnt := 0 } }
    else { s with frm := { s.frm with syncCnt := 0 } }

/-- `Discard()` (42_dlbus_framer.md R172). -/
def discard (s : State) : State :=
  { s with frm := { s.frm with fstate := .awaitingSync, syncCnt := 0, bitIndex := 0, bufLen := 0 } }

/-- Where the stop bit of a byte record stands: after its start bit at 0 and its `DATA_BITS` data bits
(42_dlbus_framer.md R170; 00_scope.md R7). -/
def stopIndex (p : Params) : Nat := p.dataBits + 1

/-- `StartBit()` (42_dlbus_framer.md R173). -/
def startBit (s : State) : State :=
  { s with frm := { s.frm with shift := 0, bitIndex := 1 } }

/-- `DataBit(sym)`, `BIT_INDEX` in 1..`DATA_BITS` (42_dlbus_framer.md R174). -/
def dataBit (y : Symbol) (s : State) : State :=
  { s with
    frm :=
      { s.frm with
        shift := if y = .high then s.frm.shift ||| (1#8 <<< (s.frm.bitIndex.val - 1)) else s.frm.shift
        bitIndex := s.frm.bitIndex + 1 } }

/-- `StopBit()` (42_dlbus_framer.md R175). -/
def stopBit (p : Params) (s : State) : State :=
  { s with
    frm :=
      { s.frm with
        buf :=
          if s.frm.bufLen.toNat < p.frameCap then s.frm.buf.set s.frm.bufLen.toNat s.frm.shift
          else s.frm.buf
        bufLen := satSucc s.frm.bufLen
        bitIndex := 0 } }

/-- `FramingError()` (42_dlbus_framer.md R176). -/
def framingError (s : State) : State :=
  discard (raiseEvent { s with cnt := { s.cnt with framing := s.cnt.framing + 1 } })

/-- The raw slot a completion leaves: the stored bytes, 0 elsewhere (42_dlbus_framer.md R177). -/
def completedSlot (p : Params) (f : Framer) (slot : RawSlot) : RawSlot :=
  { raw := (List.range p.frameCap).map fun j =>
      if j < min f.bufLen.toNat p.frameCap then f.buf.getD j 0#8 else 0#8
    rawLen := f.bufLen
    rawSeq := slot.rawSeq + 1 }

/-- `Complete()`: the raw slot, its flags and counter, the parse in the same transaction, and the framer's
return to `AwaitingSync` with one `High` counted (42_dlbus_framer.md R177). -/
def complete (p : Params) (s : State) : State :=
  let s1 :=
    { s with
      rawSlot := completedSlot p s.frm s.rawSlot
      flags := { s.flags with rawOverrun := s.flags.rawOverrun || s.flags.rawReady, rawReady := true }
      cnt := { s.cnt with frames := s.cnt.frames + 1 } }
  let s2 := parse p s1
  { s2 with frm := { s2.frm with fstate := .awaitingSync, syncCnt := 1, bitIndex := 0, bufLen := 0 } }

/-- `FRAMER(sym)` (42_dlbus_framer.md R170). -/
def framer (p : Params) (y : Symbol) (s : State) : State :=
  match s.frm.fstate with
  | .awaitingSync => awaitSync p y s
  | .receiving =>
    match y with
    | .invalid => discard s
    | .low =>
      if s.frm.bitIndex = 0 then startBit s
      else if s.frm.bitIndex.val = stopIndex p then framingError s
      else dataBit .low s
    | .high =>
      if s.frm.bitIndex = 0 then complete p s
      else if s.frm.bitIndex.val = stopIndex p then stopBit p s
      else dataBit .high s

/-- `emit s`: the symbol goes to the framer in the same transaction and pulses the tap
(00_scope.md R10; 30_encoding.md R103). -/
def emit (p : Params) (y : Symbol) (s : State) : State :=
  framer p y { s with out := { s.out with symTap := some y.code } }

end Sys2Proof.Machine
end

