-- ==== Sys2Proof/Machine/DecoderOps.lean ====
section
/-! DEFINITION. The Manchester decoder (41_manchester_decoder.md). -/

namespace Sys2Proof.Machine

/-- `R`: the samples in ascending order less one minimum and one maximum (41_manchester_decoder.md R132). -/
def trimmed (samples : List Nat) : List Nat :=
  ((samples.insertionSort (· ≤ ·)).drop 1).dropLast

/-- `T0`: the smallest remaining sample (41_manchester_decoder.md R132). -/
def initialEstimate (r : List Nat) : Nat := r.headD 0

/-- `H`: the half-bit class (41_manchester_decoder.md R133). -/
def halfClass (p : Params) (r : List Nat) : List Nat :=
  r.filter fun x => p.classDen * x ≤ p.classNum * initialEstimate r

/-- `F`: the full-bit class (41_manchester_decoder.md R133). -/
def fullClass (p : Params) (r : List Nat) : List Nat :=
  r.filter fun x => p.classNum * initialEstimate r < p.classDen * x

/-- The integer mean, 0 of an empty class (41_manchester_decoder.md R133). -/
def mean (l : List Nat) : Nat := l.sum / l.length

/-- `Calibrate` (41_manchester_decoder.md R132, R133, R134). -/
def calibrate (p : Params) (d : Decoder) : Decoder :=
  let r := trimmed ((d.samples.take p.sampleN).map BitVec.toNat)
  let halfT := mean (halfClass p r)
  { d with
    halfT := BitVec.ofNat Config.tsW halfT
    fullEst := BitVec.ofNat Config.tsW (mean (fullClass p r))
    sens := BitVec.ofNat Config.tsW (p.sensNum * halfT / p.sensDen)
    calValid := true }

/-- The recording half of `DiscoverEdge`: `SAMPLES[SAMPLE_CNT] <- ts - LAST_TS`, then the count
(41_manchester_decoder.md R131). -/
def recordSample (ts : Tick) (d : Decoder) : Decoder :=
  { d with
    samples := d.samples.set d.sampleCnt.toNat (ts - d.lastTs)
    sampleCnt := d.sampleCnt + 1 }

/-- `DiscoverEdge(ts)` (41_manchester_decoder.md R131).  It emits nothing. -/
def discoverEdge (p : Params) (ts : Tick) (s : State) : State :=
  if s.dec.dcPrevValid then
    let d := recordSample ts s.dec
    if d.sampleCnt.toNat = p.sampleN then
      { s with
        dec :=
          { calibrate p d with
            dstate := .synchronizing, ref := refAt ts, refValid := true, dcPrevValid := true } }
    else { s with dec := { d with dcPrevValid := true } }
  else { s with dec := { s.dec with dcPrevValid := true } }

/-- `SyncingEdge(ts, pol)` (41_manchester_decoder.md R136).  It emits nothing. -/
def syncingEdge (p : Params) (ts : Tick) (pol : Polarity) (s : State) : State :=
  if s.dec.refValid then
    let i := intervalClass p s.dec.sens s.dec.halfT (elapsed ts s.dec.ref)
    if i = 2 ∧ pol = .falling then
      { s with
        dec := { s.dec with dstate := .synchronized, last := 0, ref := refBefore ts s.dec.halfT } }
    else { s with dec := { s.dec with ref := refAt ts } }
  else { s with dec := { s.dec with ref := refAt ts, refValid := true } }

/-- `CNT_INVALID <- CNT_INVALID + 1` and `raise Invalid` (41_manchester_decoder.md R137, R140). -/
def noteInvalid (s : State) : State :=
  raiseEvent { s with cnt := { s.cnt with invalid := s.cnt.invalid + 1 } }

/-- `SyncedEdge(ts, pol)` with the symbol it returns (41_manchester_decoder.md R137, R138). -/
def syncedEdge (p : Params) (ts : Tick) (pol : Polarity) (s : State) : State × Option Symbol :=
  let i := intervalClass p s.dec.sens s.dec.halfT (elapsed ts s.dec.ref)
  if accepts i s.dec.last then
    if i = 2 then ({ s with dec := { s.dec with last := 2, ref := refAt ts } }, none)
    else
      ({ s with dec := { s.dec with last := BitVec.ofInt 2 i, ref := refBefore ts s.dec.halfT } },
        some pol.symbol)
  else
    (noteInvalid
      { s with
        dec := { s.dec with dstate := .synchronizing, ref := refAt ts, refValid := true, last := 0 } },
      some .invalid)

/-- `DecoderDrop` (41_manchester_decoder.md R140). -/
def decoderDrop (p : Params) (s : State) : State :=
  match s.dec.dstate with
  | .discoverClock => { s with dec := { s.dec with dcPrevValid := false } }
  | .synchronizing => { s with dec := { s.dec with refValid := false } }
  | .synchronized =>
    emit p .invalid
      (noteInvalid { s with dec := { s.dec with dstate := .synchronizing, refValid := false, last := 0 } })

/-- `DROP` (41_manchester_decoder.md R139). -/
def dropMarker (p : Params) (s : State) : State :=
  decoderDrop p { s with cnt := { s.cnt with drop := s.cnt.drop + 1 } }

/-- An edge whose time does not increase, or of the reserved kind: `INERR`, then `DROP`
(41_manchester_decoder.md R130; 30_encoding.md R115). -/
def divert (p : Params) (s : State) : State :=
  dropMarker p (setInErr s)

/-- `LAST_TS_VALID == 1 and ts <= LAST_TS` (41_manchester_decoder.md R130). -/
def notIncreasing (ts : Tick) (d : Decoder) : Bool :=
  d.lastTsValid && decide (ts.toNat ≤ d.lastTs.toNat)

/-- The decoder's work on an accepted edge, by its state, with the symbol to emit
(41_manchester_decoder.md R130). -/
def decodeByState (p : Params) (pol : Polarity) (ts : Tick) (s : State) : State × Option Symbol :=
  match s.dec.dstate with
  | .discoverClock => (discoverEdge p ts s, none)
  | .synchronizing => (syncingEdge p ts pol s, none)
  | .synchronized => syncedEdge p ts pol s

/-- `LAST_TS <- ts ; LAST_TS_VALID <- 1` (41_manchester_decoder.md R130; 10_state.md R38). -/
def noteTime (ts : Tick) (s : State) : State :=
  { s with dec := { s.dec with lastTs := ts, lastTsValid := true } }

/-- `EDGE` (41_manchester_decoder.md R130). -/
def edge (p : Params) (pol : Polarity) (ts : Tick) (s : State) : State :=
  if notIncreasing ts s.dec then divert p s
  else
    let r := decodeByState p pol ts s
    let s1 := noteTime ts r.1
    match r.2 with
    | none => s1
    | some y => emit p y s1

end Sys2Proof.Machine
end

