-- ==== Sys2Proof/Machine/EdgePort.lean ====
section
/-! DEFINITION. The meanings of the edge-port rows: FE, RE, DROP, RSVD.EDGE. -/

namespace Sys2Proof.Machine

/-- `FE` (30_encoding.md R100; 41_manchester_decoder.md R130). -/
def execFe (ts : Tick) (s : State) : Host.Outcome State Fault Refusal :=
  .next (edge Config.dlrx .falling ts (beginEdge s))

/-- `RE` (30_encoding.md R100; 41_manchester_decoder.md R130). -/
def execRe (ts : Tick) (s : State) : Host.Outcome State Fault Refusal :=
  .next (edge Config.dlrx .rising ts (beginEdge s))

/-- `DROP` (41_manchester_decoder.md R139). -/
def execDrop (s : State) : Host.Outcome State Fault Refusal :=
  .next (dropMarker Config.dlrx (beginEdge s))

/-- `RSVD.EDGE`: handled as `DROP`, and sets `INERR` (30_encoding.md R115; 41_manchester_decoder.md R130). -/
def execRsvdEdge (s : State) : Host.Outcome State Fault Refusal :=
  .next (divert Config.dlrx (beginEdge s))

end Sys2Proof.Machine
end

