-- ==== Sys2Proof/Machine/HostPort.lean ====
section
/-! DEFINITION. The meanings of the host-port rows: RD and the writes (44_host_interface.md). -/

namespace Sys2Proof.Machine

/-- `RD` (44_host_interface.md R230, R231). -/
def execRd (a : WordNumber) (s : State) : Host.Outcome State Fault Refusal :=
  .next (hostRead a s)

/-- `WR.CTRL` (44_host_interface.md R233). -/
def execWrCtrl (d : BitVec 3) (s : State) : Host.Outcome State Fault Refusal :=
  .next (ctrlWrite d (beginHost s))

/-- `WR.CMD.RESTART` (44_host_interface.md R235, R237). -/
def execWrCmdRestart (s : State) : Host.Outcome State Fault Refusal :=
  .next (restart (beginHost s))

/-- `WR.CMD.NOP`: "Otherwise nothing happens" (44_host_interface.md R235). -/
def execWrCmdNop (s : State) : Host.Outcome State Fault Refusal :=
  .next (beginHost s)

/-- `WR.STATUS.ACK` (44_host_interface.md R234). -/
def execWrStatusAck (e : BitVec 5) (s : State) : Host.Outcome State Fault Refusal :=
  .next (statusWrite e (beginHost s))

/-- `WR.OTHER`: no effect on any register (44_host_interface.md R232, R236; 10_state.md R66). -/
def execWrOther (_ : WordNumber) (s : State) : Host.Outcome State Fault Refusal :=
  .next (beginHost s)

end Sys2Proof.Machine
end

