-- ==== Sys2Proof/Machine/SymbolLink.lean ====
section
/-! DEFINITION. The meanings of the symbol rows: SYM.LOW, SYM.HIGH, SYM.INVALID and SYM.RSVD.  A symbol
presented as a word of its own drives the framer alone (30_encoding.md R104; log entry 8): the decoder
emitted nothing, so no port strobe pulses. -/

namespace Sys2Proof.Machine

/-- `SYM.LOW` (42_dlbus_framer.md R170). -/
def execSymLow (s : State) : Host.Outcome State Fault Refusal :=
  .next (framer Config.dlrx .low (quiet s))

/-- `SYM.HIGH` (42_dlbus_framer.md R170). -/
def execSymHigh (s : State) : Host.Outcome State Fault Refusal :=
  .next (framer Config.dlrx .high (quiet s))

/-- `SYM.INVALID` (42_dlbus_framer.md R170, R171, R172). -/
def execSymInvalid (s : State) : Host.Outcome State Fault Refusal :=
  .next (framer Config.dlrx .invalid (quiet s))

/-- `SYM.RSVD`: refused in every state, as the spec demands (30_encoding.md R104, R115;
93_implementation_defined.md I3). -/
def execSymRsvd (_ : State) : Host.Outcome State Fault Refusal :=
  .refused .symCodeReserved

end Sys2Proof.Machine
end

