-- ==== Sys2Proof/Machine/Dispatch.lean ====
section
/-! DEFINITION. The one dispatch from instructions to meanings. -/

namespace Sys2Proof.Machine

def exec (i : Instr) (s : State) : Host.Outcome State Fault Refusal :=
  match i with
  | .fe ts => Sys2Proof.Machine.execFe ts s
  | .re ts => Sys2Proof.Machine.execRe ts s
  | .drop => Sys2Proof.Machine.execDrop s
  | .rsvdEdge => Sys2Proof.Machine.execRsvdEdge s
  | .symLow => Sys2Proof.Machine.execSymLow s
  | .symHigh => Sys2Proof.Machine.execSymHigh s
  | .symInvalid => Sys2Proof.Machine.execSymInvalid s
  | .symRsvd => Sys2Proof.Machine.execSymRsvd s
  | .rd a => Sys2Proof.Machine.execRd a s
  | .wrCtrl d => Sys2Proof.Machine.execWrCtrl d s
  | .wrCmdRestart => Sys2Proof.Machine.execWrCmdRestart s
  | .wrCmdNop => Sys2Proof.Machine.execWrCmdNop s
  | .wrStatusAck e => Sys2Proof.Machine.execWrStatusAck e s
  | .wrOther a => Sys2Proof.Machine.execWrOther a s

end Sys2Proof.Machine
end

