-- ==== Sys2Proof/WellFormed.lean ====
section
/-! DEFINITION. Which terms of `Instr` stand for a row of the opcode table. -/

namespace Sys2Proof

/-- `WR.OTHER` is a write to "any word offset other than 0x04, 0x08, 0x0C" (opcode_table.json): word
numbers 1, 2 and 3 are `CTRL`, `CMD` and `STATUS` (20_memory.md R84).  Every other row admits every
value of its operands (30_encoding.md R101, R105). -/
def Instr.wellFormed : Instr → Bool
  | .fe _ => true
  | .re _ => true
  | .drop => true
  | .rsvdEdge => true
  | .symLow => true
  | .symHigh => true
  | .symInvalid => true
  | .symRsvd => true
  | .rd _ => true
  | .wrCtrl _ => true
  | .wrCmdRestart => true
  | .wrCmdNop => true
  | .wrStatusAck _ => true
  | .wrOther a => a != 1#_ && a != 2#_ && a != 3#_

end Sys2Proof
end

