-- ==== Sys2Proof/Decode.lean ====
section
/-! DEFINITION. Decoding of the three fixed formats (30_encoding.md R100, R102, R105, R114), the decoder
on raw bits with its named rejections, and the encoder. -/

namespace Sys2Proof

/-- The kind field picks the row, bits [63:0] are the time (30_encoding.md R100). -/
def decodeEdge (w : EdgeWord) : Instr :=
  let kind := w.extractLsb' Config.tsW 2
  let ts := w.extractLsb' 0 Config.tsW
  if kind = 0b00#2 then .fe ts
  else if kind = 0b01#2 then .re ts
  else if kind = 0b10#2 then .drop
  else .rsvdEdge

/-- The code picks the symbol (30_encoding.md R102, R104). -/
def decodeSym (c : BitVec 2) : Instr :=
  if c = 0b00#2 then .symLow
  else if c = 0b01#2 then .symHigh
  else if c = 0b10#2 then .symInvalid
  else .symRsvd

/-- `HOST_WE`, then the word `HOST_ADDR & 0xFC` against the map of 20_memory.md R84 (30_encoding.md
R105, R106, R114; 44_host_interface.md R232, R235). -/
def decodeHost (w : HostWord) : Instr :=
  let a := w.extractLsb' (Config.regW + 2) (Config.addrW - 2)
  if w.getLsbD (Config.regW + Config.addrW) then
    if a = 1#_ then .wrCtrl (w.extractLsb' 0 3)
    else if a = 2#_ then (if w.getLsbD 0 then .wrCmdRestart else .wrCmdNop)
    else if a = 3#_ then .wrStatusAck (w.extractLsb' 8 5)
    else .wrOther a
  else .rd a

/-- A word at a port is decoded by its port's format; no mode changes decoding (30_encoding.md R116). -/
def decode : PortWord → Instr
  | .edge w => decodeEdge w
  | .host w => decodeHost w
  | .sym c => decodeSym c

/-- Why raw bits are no transaction. -/
inductive DecodeError where
  /-- the bits do not fit the port's format (30_encoding.md R116) -/
  | tooWide
  /-- no format has this length -/
  | noSuchFormat
  deriving DecidableEq, Repr

/-- The width of each fixed format (30_encoding.md R102, R116). -/
def Port.width : Port → Nat
  | .edge => 2 + Config.tsW
  | .host => 1 + Config.addrW + Config.regW
  | .sym => 2

/-- Raw bits laid on a port; bits above the format are on no port. -/
def PortWord.ofBits (p : Port) (n : Nat) : Except DecodeError PortWord :=
  if n < 2 ^ p.width then
    match p with
    | .edge => .ok (.edge (BitVec.ofNat _ n))
    | .host => .ok (.host (BitVec.ofNat _ n))
    | .sym => .ok (.sym (BitVec.ofNat 2 n))
  else .error .tooWide

/-- Whether `nbits` is the width of a port's format, or that width in whole bytes (log entry 19). -/
def Port.hasBits (p : Port) (nbits : Nat) : Bool :=
  nbits == p.width || nbits == (p.width + 7) / 8 * 8

/-- Which format a table row of `nbits` bits has. -/
def portOfTableBits (nbits : Nat) : Except DecodeError Port :=
  if Port.edge.hasBits nbits then .ok .edge
  else if Port.host.hasBits nbits then .ok .host
  else if Port.sym.hasBits nbits then .ok .sym
  else .error .noSuchFormat

/-- The port word of a table row's bits. -/
def tableWord (nbits w : Nat) : Except DecodeError PortWord :=
  match portOfTableBits nbits with
  | .ok p => PortWord.ofBits p w
  | .error e => .error e

/-- Decoding of raw bits, total, rejecting by name. -/
def decodeBits (nbits w : Nat) : Except DecodeError Instr :=
  match tableWord nbits w with
  | .ok x => .ok (decode x)
  | .error e => .error e

/-- The instruction the decoder reads from a word of the opcode table, `none` where it rejects it. -/
def decodeTableWord (nbits w : Nat) : Option Instr :=
  (decodeBits nbits w).toOption

/-- The word of an instruction, from the encodings of spec/opcode_table.json; ignored bits are 0 (log
entry 18). -/
def encode : Instr → PortWord
  | .fe ts => .edge (0b00#2 ++ ts)
  | .re ts => .edge (0b01#2 ++ ts)
  | .drop => .edge (0b10#2 ++ 0#Config.tsW)
  | .rsvdEdge => .edge (0b11#2 ++ 0#Config.tsW)
  | .symLow => .sym 0b00#2
  | .symHigh => .sym 0b01#2
  | .symInvalid => .sym 0b10#2
  | .symRsvd => .sym 0b11#2
  | .rd a => .host (0#1 ++ a ++ 0#(2 + Config.regW))
  | .wrCtrl d => .host (1#1 ++ (1 : WordNumber) ++ 0#(2 + (Config.regW - 3)) ++ d)
  | .wrCmdRestart => .host (1#1 ++ (2 : WordNumber) ++ 0#(2 + (Config.regW - 1)) ++ 1#1)
  | .wrCmdNop => .host (1#1 ++ (2 : WordNumber) ++ 0#(2 + (Config.regW - 1)) ++ 0#1)
  | .wrStatusAck e => .host (1#1 ++ (3 : WordNumber) ++ 0#(2 + (Config.regW - 13)) ++ e ++ 0#8)
  | .wrOther a => .host (1#1 ++ a ++ 0#(2 + Config.regW))

/-- The port each row's format belongs to (the table's "format" column). -/
def Instr.port : Instr → Port
  | .fe _ => .edge
  | .re _ => .edge
  | .drop => .edge
  | .rsvdEdge => .edge
  | .symLow => .sym
  | .symHigh => .sym
  | .symInvalid => .sym
  | .symRsvd => .sym
  | .rd _ => .host
  | .wrCtrl _ => .host
  | .wrCmdRestart => .host
  | .wrCmdNop => .host
  | .wrStatusAck _ => .host
  | .wrOther _ => .host

/-- The port a word is presented at. -/
def PortWord.port : PortWord → Port
  | .edge _ => .edge
  | .host _ => .host
  | .sym _ => .sym

end Sys2Proof
end

