-- ==== Sys2Proof/Machine/Fetch.lean ====
section
/-! DEFINITION. Taking the next thing that happens at the ports from the schedule (00_scope.md R5;
20_memory.md R88; 70_reset_and_hazards.md R290, R301), and placing a word to be taken next. -/

namespace Sys2Proof.Machine

/-- What a step finds at the ports: nothing to decode (the state it goes to is given), or a word at a
port, with the state it is performed in. -/
inductive Fetched where
  | settled (t : State)
  | offered (w : PortWord) (t : State)

/-- The state with this schedule left. -/
def withInputs (l : List Input) (s : State) : State :=
  { s with env := { s.env with inputs := l } }

/-- Whether an item offers a transaction, which waits while `RST_N` = 0 (70_reset_and_hazards.md R290). -/
def Input.isTransaction : Input → Bool
  | .rstN _ => false
  | .wall _ => false
  | .word _ => true
  | .both _ _ => true

/-- While `RST_N` = 0 the block accepts no transaction: what is offered stays offered, and the first level
change in the schedule is what happens next (70_reset_and_hazards.md R290; log entry 3). -/
def fetchInReset (s : State) : State :=
  let waiting := s.env.inputs.takeWhile Input.isTransaction
  match s.env.inputs.dropWhile Input.isTransaction with
  | .rstN b :: rest => driveRstN b (withInputs (waiting ++ rest) s)
  | .wall t :: rest => driveWall t (withInputs (waiting ++ rest) s)
  | _ => quiet s

/-- Two words offered together: one is performed now, the other stays offered, which first is free
(70_reset_and_hazards.md R301; log entry 2). -/
def arbitrate (e : EdgeWord) (h : HostWord) (rest : List Input) (s : State) : Fetched :=
  let t := { s with env := { s.env with choices := s.env.choices + 1 } }
  if Config.edgeFirst s.env.choices then
    .offered (.edge e) (withInputs (.word (.host h) :: rest) t)
  else .offered (.host h) (withInputs (.word (.edge e) :: rest) t)

/-- The next thing that happens.  With nothing offered the block holds its state (60_exceptions.md R280). -/
def fetch (s : State) : Fetched :=
  if s.env.rstN then
    match s.env.inputs with
    | [] => .settled (quiet s)
    | .rstN b :: rest => .settled (driveRstN b (withInputs rest s))
    | .wall t :: rest => .settled (driveWall t (withInputs rest s))
    | .word w :: rest => .offered w (withInputs rest s)
    | .both e h :: rest => arbitrate e h rest s
  else .settled (fetchInReset s)

/-- The word is offered next, out of reset (log entry 1). -/
def placeWord (w : PortWord) (s : State) : State :=
  { s with env := { s.env with rstN := true, inputs := .word w :: s.env.inputs } }

/-- A table row's word offered next; bits that are no word of a port are offered nowhere. -/
def placeTableWord (nbits w : Nat) (s : State) : State :=
  match tableWord nbits w with
  | .ok x => placeWord x s
  | .error _ => s

end Sys2Proof.Machine
end

