-- ==== Sys2Proof/Machine/Step.lean ====
section
/-! DEFINITION. One step: one transaction, or one change of a level, or nothing offered (00_scope.md R5). -/

namespace Sys2Proof.Machine

/-- A step takes the next thing that happens at the ports and, where it is a word, performs what the
decoder reads from it, atomically and completely (00_scope.md R5). -/
def step (s : State) : Host.Outcome State Fault Refusal :=
  match fetch s with
  | .settled t => .next t
  | .offered w t => exec (decode w) t

/-- The state in which the very next step performs the given word of the opcode table (log entry 1). -/
def State.withFetchWord (s : State) (nbits w : Nat) : State :=
  placeTableWord nbits w s

end Sys2Proof.Machine
end

