-- ==== Sys2Proof/Safety.lean ====
section
/-! DEFINITION. The terms in which claims about the machine are stated: when an edge is accepted, what a
transaction shows at the ports, streams of symbols, and the invariants of 70_reset_and_hazards.md R307. -/

namespace Sys2Proof.Safety

open Sys2Proof.Machine

/-- An edge at `ts` is not diverted: its time is above the last accepted one
(41_manchester_decoder.md R130). -/
abbrev Accepted (ts : Tick) (d : Decoder) : Prop :=
  d.lastTsValid = true → d.lastTs.toNat < ts.toNat

/-- What an edge-port transfer shows when it emits `y` or nothing (30_encoding.md R100, R103). -/
def edgeOutputs (y : Option (BitVec 2)) : Outputs :=
  { edgeReady := true, hostReady := false, symTap := y, hostRdata := none }

/-- What a host access shows; `w` is the word of a read (20_memory.md R80). -/
def hostOutputs (w : Option RegWord) : Outputs :=
  { edgeReady := false, hostReady := true, symTap := none, hostRdata := w }

/-- The interval class of an edge at `ts`: Q(ts - REF) (41_manchester_decoder.md R135). -/
def edgeClass (ts : Tick) (d : Decoder) : Int :=
  intervalClass Config.dlrx d.sens d.halfT (elapsed ts d.ref)

/-- The decoder with the time of an accepted edge noted (41_manchester_decoder.md R130). -/
def timed (ts : Tick) (d : Decoder) : Decoder :=
  { d with lastTs := ts, lastTsValid := true }

/-- One flag as a number. -/
def bit (b : Bool) : Nat := if b then 1 else 0

/-- Temperature i of a raw frame in tenths of a degree, its bytes read as a two's complement number
(43_uvr42_parser.md R203). -/
def tenths (raw : List Byte) (i : Nat) : Int :=
  (raw.getD (2 * i) 0#8 ++ raw.getD (2 * i - 1) 0#8 : BitVec 16).toInt

/-- All four temperatures lie in [-500, 3000] (43_uvr42_parser.md R206). -/
abbrev AllInRange (raw : List Byte) : Prop :=
  ∀ i ∈ [1, 2, 3, 4], -500 ≤ tenths raw i ∧ tenths raw i ≤ 3000

/-- One bit as a symbol (30_encoding.md R102, R110). -/
def bitSymbol (b : Bool) : Symbol := if b then .high else .low

/-- A byte record: start `Low`, eight data bits least significant first, stop `High`
(30_encoding.md R110, R119). -/
def byteBits (v : Byte) : List Bool :=
  [false, v.getLsbD 0, v.getLsbD 1, v.getLsbD 2, v.getLsbD 3, v.getLsbD 4, v.getLsbD 5, v.getLsbD 6,
    v.getLsbD 7, true]

/-- A byte record as symbols. -/
def byteSymbols (v : Byte) : List Symbol := (byteBits v).map bitSymbol

/-- A frame as bits: a sync gap of 16 `High`, then its byte records (30_encoding.md R110, R119). -/
def frameBits (bytes : List Byte) : List Bool :=
  List.replicate 16 true ++ bytes.flatMap byteBits

/-- A frame on the symbol link: a sync gap of 16 `High`, then its byte records (30_encoding.md R110). -/
def frameSymbols (bytes : List Byte) : List Symbol :=
  List.replicate 16 .high ++ bytes.flatMap byteSymbols

/-- The framer driven by a list of symbols, in order. -/
def runFramer (ys : List Symbol) (s : State) : State :=
  ys.foldl (fun t y => framer Config.dlrx y t) s

/-- The frames the framer completes on a list of symbols: the bytes in the raw slot after each symbol
that advances `RAW_SEQ` (42_dlbus_framer.md R177). -/
def framesOf : List Symbol → State → List (List Byte)
  | [], _ => []
  | y :: ys, s =>
    let t := framer Config.dlrx y s
    if t.rawSlot.rawSeq = s.rawSlot.rawSeq then framesOf ys t
    else t.rawSlot.raw.take t.rawSlot.rawLen.toNat :: framesOf ys t

/-- The edges of the Manchester waveform of a bit string: `mstream t0, T, L, "bits"` (30_encoding.md R109,
R118).  A boundary edge where the line level differs from the bit's first half, then the mid-bit edge. -/
def manchesterEdges (T : Nat) : Nat → Bool → List Bool → List (Polarity × Nat)
  | _, _, [] => []
  | t0, level, b :: bs =>
    (if level = b then [] else [(if b then .rising else .falling, t0)]) ++
      (if b then .falling else .rising, t0 + T) :: manchesterEdges T (t0 + 2 * T) (!b) bs

/-- The edge-port row of an edge. -/
def edgeInstr : Polarity × Nat → Instr
  | (.falling, t) => .fe (BitVec.ofNat Config.tsW t)
  | (.rising, t) => .re (BitVec.ofNat Config.tsW t)

/-- The next states of rows performed one after the other, while each has one. -/
def statesOf : List Instr → State → List State
  | [], _ => []
  | i :: is, s =>
    match exec i s with
    | .next t => t :: statesOf is t
    | .fault _ => []
    | .refused _ => []

/-- The words a host reads as one raw frame (70_reset_and_hazards.md R300). -/
def rawGroup (s : State) : List RegWord :=
  [regRead 17 s, regRead 18 s, regRead 19 s, regRead 20 s, regRead 21 s]

/-- The words a host reads as one snapshot (70_reset_and_hazards.md R300). -/
def snapGroup (s : State) : List RegWord :=
  [regRead 25 s, regRead 26 s, regRead 27 s, regRead 28 s, regRead 29 s]

/-- The counter and sequence equalities of 70_reset_and_hazards.md R307. -/
structure CountersAgree (s : State) : Prop where
  res_raw : s.res.seq = s.rawSlot.rawSeq
  raw_frames : s.rawSlot.rawSeq = s.cnt.frames
  snap_ok : s.snap.seq = s.cnt.ok
  frames_split : s.cnt.frames = s.cnt.ok + s.cnt.size + s.cnt.device + s.cnt.temp
  ok_valid : s.snap.valid = false → s.cnt.ok = 0
  none_before_any : s.res.code = .none → s.rawSlot.rawSeq = 0

/-- `SNAP_VALID` and `RES_CODE` against the counts, while these have not wrapped (70_reset_and_hazards.md R307). -/
structure SlotsAgree (s : State) : Prop where
  valid_iff : s.snap.valid = true ↔ s.cnt.ok ≠ 0
  none_iff : s.res.code = .none ↔ s.rawSlot.rawSeq = 0

/-- What holds of the framer and the slots however symbols arrive (42_dlbus_framer.md R175, R177;
10_state.md R49, R50; 70_reset_and_hazards.md R307). -/
structure FramerInv (s : State) : Prop where
  buf_len : s.frm.buf.length = 16
  raw_len : s.rawSlot.raw.length = 16
  raw_tail : ∀ j, s.rawSlot.rawLen.toNat ≤ j → s.rawSlot.raw.getD j 0#8 = 0#8
  awaiting_clean : s.frm.fstate = .awaitingSync → s.frm.bitIndex = 0 ∧ s.frm.bufLen = 0
  frame_has_bytes : s.frm.fstate = .receiving → s.frm.bitIndex = 0 → s.frm.bufLen ≠ 0
  counters : CountersAgree s

/-- What holds of the decoder (10_state.md R34 to R44; 41_manchester_decoder.md R133, R134, R135;
70_reset_and_hazards.md R307). -/
structure DecoderInv (d : Decoder) : Prop where
  samples_len : d.samples.length = 500
  count_le : d.sampleCnt.toNat ≤ 500
  discovering : d.dstate = .discoverClock ↔ d.sampleCnt.toNat < 500
  samples_pos : ∀ j, j < d.sampleCnt.toNat → 0 < (d.samples.getD j 0#64).toNat
  prev_valid : d.dcPrevValid = true → d.lastTsValid = true
  calibrated : d.dstate ≠ .discoverClock → d.calValid = true ∧ 0 < d.halfT.toNat
  sens_rule : d.sens.toNat = 6 * d.halfT.toNat / 10
  ref_past : d.dstate ≠ .discoverClock → d.refValid = true →
    d.lastTsValid = true ∧ d.ref.toInt ≤ d.lastTs.toNat
  synced_ref : d.dstate = .synchronized → d.refValid = true
  last_zero : d.dstate ≠ .synchronized → d.last = 0

/-- An item of the schedule that presents a symbol to the framer from outside: the block has no such port
(30_encoding.md R104). -/
def isSymbolItem : Input → Bool
  | .word (.sym _) => true
  | .word (.edge _) => false
  | .word (.host _) => false
  | .rstN _ => false
  | .wall _ => false
  | .both _ _ => false

/-- The invariant of the block driven at its own ports (70_reset_and_hazards.md R307;
41_manchester_decoder.md R140). -/
structure BlockInv (s : State) : Prop where
  framer : FramerInv s
  decoder : DecoderInv s.dec
  receiving_synced : s.frm.fstate = .receiving → s.dec.dstate = .synchronized
  unsynced_quiet : s.dec.dstate ≠ .synchronized → s.frm.fstate = .awaitingSync ∧ s.frm.syncCnt = 0
  no_symbols : ∀ x ∈ s.env.inputs, isSymbolItem x = false

end Sys2Proof.Safety
end

