-- ==== Sys2Proof/Certificates/Slice0/Obligations.lean ====
section
/-! DEFINITION. The statements about the block, in the order of spec/: encoding, the step, the decoder, the
framer, the parser, the host port, events and flags, reset, and the whole-machine rules. -/

open Sys2Proof Sys2Proof.Machine Sys2Proof.Safety

/-! ### Encoding (30_encoding.md) -/

/-- Every instruction the table has is read back from its word, with every operand value. -/
def Obligations.DecodeOfEncodeIsTheInstruction : Prop :=
  ∀ i : Instr, i.wellFormed = true → decode (encode i) = i

/-- R100, R105: the word of the instruction a word decodes to agrees with it on every bit the block reads. -/
def Obligations.EncodeOfDecodeKeepsTheReadBits : Prop :=
  (∀ w : BitVec 66, ∃ v, encode (decode (.edge w)) = .edge v ∧
      v.extractLsb' 64 2 = w.extractLsb' 64 2 ∧ (w.getLsbD 65 = false → v = w)) ∧
  (∀ c : BitVec 2, encode (decode (.sym c)) = .sym c) ∧
  (∀ w : BitVec 41, ∃ v, encode (decode (.host w)) = .host v ∧
      v.getLsbD 40 = w.getLsbD 40 ∧ v.extractLsb' 34 6 = w.extractLsb' 34 6 ∧
      (w.getLsbD 40 = true →
        (w.extractLsb' 34 6 = 1 → v.extractLsb' 0 3 = w.extractLsb' 0 3) ∧
        (w.extractLsb' 34 6 = 2 → v.getLsbD 0 = w.getLsbD 0) ∧
        (w.extractLsb' 34 6 = 3 → v.extractLsb' 8 5 = w.extractLsb' 8 5)))

/-- R101, R105, R114: whatever is presented at a port is some row of that port's format. -/
def Obligations.EveryWordIsARowOfItsFormat : Prop :=
  ∀ w : PortWord, (decode w).wellFormed = true ∧ (decode w).port = w.port

/-- R85, R101, R105, R106: the bits the table marks ignored do not reach the instruction. -/
def Obligations.IgnoredBitsDoNotReachTheInstruction : Prop :=
  (∀ w v : BitVec 66, w.getLsbD 65 = true → v.extractLsb' 64 2 = w.extractLsb' 64 2 →
      decode (.edge v) = decode (.edge w)) ∧
  (∀ w v : BitVec 41, v.getLsbD 40 = w.getLsbD 40 → v.extractLsb' 34 6 = w.extractLsb' 34 6 →
      (w.getLsbD 40 = true →
        (w.extractLsb' 34 6 = 1 → v.extractLsb' 0 3 = w.extractLsb' 0 3) ∧
        (w.extractLsb' 34 6 = 2 → v.getLsbD 0 = w.getLsbD 0) ∧
        (w.extractLsb' 34 6 = 3 → v.extractLsb' 8 5 = w.extractLsb' 8 5)) →
      decode (.host v) = decode (.host w))

/-- R100, R102, R105: a few words written out in 95_test_vectors.md section 2 and program P1, given with the
number of bits of their format (30_encoding.md R116: 66 and 41; R102: 2). -/
def Obligations.WordsOfTheTestVectorsDecode : Prop :=
  decodeTableWord 66 0x0000000003CCBF700 = some (.fe 1020000000) ∧
  decodeTableWord 66 0x10000000000000064 = some (.re 100) ∧
  decodeTableWord 66 0x20000000000000000 = some .drop ∧
  decodeTableWord 66 0x300000000000000C8 = some .rsvdEdge ∧
  decodeTableWord 2 0b01 = some .symHigh ∧
  decodeTableWord 41 0x00C00000000 = some (.rd 3) ∧
  decodeTableWord 41 0x104FFFFFFFF = some (.wrCtrl 7) ∧
  decodeTableWord 41 0x10800000001 = some .wrCmdRestart ∧
  decodeTableWord 41 0x10800000002 = some .wrCmdNop ∧
  decodeTableWord 41 0x10C00000100 = some (.wrStatusAck 1) ∧
  decodeTableWord 41 0x14000000005 = some (.wrOther 0x10)

/-! ### The step (00_scope.md R5, 20_memory.md R88, 70_reset_and_hazards.md) -/

/-- Out of reset, the step at a word that decodes to `i` is `exec i` with the word taken off the schedule. -/
def Obligations.StepPerformsTheDecodedWord : Prop :=
  ∀ (s : State) (w : PortWord) (rest : List Input) (i : Instr),
    s.env.rstN = true → s.env.inputs = .word w :: rest → decode w = i → i.wellFormed = true →
      step s = exec i { s with env := { s.env with inputs := rest } }

/-- R301, with the order taken from the free value `Config.edgeFirst` (log entry 2): one of two words
offered together is performed and the other stays offered, next. -/
def Obligations.OfferedTogetherAreBothPerformed : Prop :=
  ∀ (s : State) (e : BitVec 66) (h : BitVec 41) (rest : List Input),
    s.env.rstN = true → s.env.inputs = .both e h :: rest →
      step s =
        (if Config.edgeFirst s.env.choices then
          exec (decode (.edge e))
            { s with env :=
              { s.env with inputs := .word (.host h) :: rest, choices := s.env.choices + 1 } }
        else
          exec (decode (.host h))
            { s with env :=
              { s.env with inputs := .word (.edge e) :: rest, choices := s.env.choices + 1 } })

/-- R280: with nothing offered every element holds its value; R117: driving `WALL_TIME` changes that input
and no element.  The model's choices: what is offered is a list (log entry 1), a step that performs nothing
shows no strobe (log entry 7), and the drive of `WALL_TIME` is an item of that list, in reset too (log entry 25). -/
def Obligations.NothingOfferedHoldsTheState : Prop :=
  (∀ s : State, s.env.inputs = [] → step s = .next { s with out := Outputs.silent }) ∧
  (∀ (s : State) (v : BitVec 64) (rest : List Input), s.env.inputs = .wall v :: rest →
    step s = .next
      { s with out := Outputs.silent, env := { s.env with inputs := rest, wallTime := v } })

/-- R290: in reset no transaction is accepted, and what was offered stays offered, in the same order (that it
waits is the model's choice, log entry 3); and when `RST_N` returns to 1 every element has its value of the table, `IRQ` and `STATUS` are 0, and every register but
`ID` reads 0. -/
def Obligations.ResetGivesEveryElementItsValue : Prop :=
  (∀ s : State, s.env.rstN = false → ∃ t, step s = .next t ∧
    t.out.edgeReady = false ∧ t.out.hostReady = false ∧ t.out.symTap = none ∧
    t.env.inputs.filter Input.isTransaction = s.env.inputs.filter Input.isTransaction) ∧
  (∀ (s : State) (rest : List Input), s.env.rstN = false → s.env.inputs = .rstN true :: rest →
    ∃ t, step s = .next t ∧ t.env.rstN = true ∧ t.env.inputs = rest ∧
      t.dec.dstate = .discoverClock ∧ t.dec.sampleCnt = 0 ∧ t.dec.dcPrevValid = false ∧
      t.dec.lastTs = 0 ∧ t.dec.lastTsValid = false ∧ t.dec.halfT = 0 ∧ t.dec.sens = 0 ∧
      t.dec.fullEst = 0 ∧ t.dec.calValid = false ∧ t.dec.ref = 0 ∧ t.dec.refValid = false ∧
      t.dec.last = 0 ∧ t.frm.fstate = .awaitingSync ∧ t.frm.syncCnt = 0 ∧ t.frm.bitIndex = 0 ∧
      t.frm.shift = 0 ∧ t.frm.bufLen = 0 ∧ t.rawSlot = ⟨List.replicate 16 0, 0, 0⟩ ∧
      t.snap = ⟨false, 0, 0, 0, 0, false, false, 0, 0⟩ ∧ t.res = ⟨.none, 0⟩ ∧
      t.flags = ⟨false, false, false, false, false⟩ ∧ t.cnt = ⟨0, 0, 0, 0, 0, 0, 0, 0⟩ ∧
      t.ctrl = 0 ∧ t.irq = false ∧ regRead 3 t = 0 ∧ t.out.symTap = none ∧
      ∀ n : BitVec 6, regRead n t = if n = 0 then 0x444C4201 else 0)

/-- `RST_N` falling, in any state, resets every element at once (log entry 3: the moment is the model's). -/
def Obligations.FallingResetClearsAnyState : Prop :=
  ∀ (s : State) (rest : List Input), s.env.rstN = true → s.env.inputs = .rstN false :: rest →
    step s = .next
      { State.reset with env := { s.env with rstN := false, inputs := rest } }

/-- `State.reset` is the state right after a reset: the spec's values, and the model's own for what the
spec leaves unspecified (log entries 1, 2, 4, 5, 6). -/
def Obligations.ResetStateIsTheResetState : Prop :=
  (∀ n : BitVec 6, regRead n State.reset = if n = 0 then 0x444C4201 else 0) ∧
  State.reset.irq = false ∧ State.reset.dec.lastTsValid = false ∧ State.reset.env.rstN = true ∧
  State.reset.dec.samples = List.replicate 500 0 ∧ State.reset.frm.buf = List.replicate 16 0 ∧
  State.reset.env.inputs = [] ∧ State.reset.env.wallTime = 0 ∧ State.reset.env.choices = 0

/-! ### The Manchester decoder (41_manchester_decoder.md) -/

/-- R130, the diverted case, and R115: a non-increasing edge does what the reserved kind does, and that is
a drop marker with `INERR` set. -/
def Obligations.DivertedEdgesAreDropsWithInerr : Prop :=
  ∀ (s : State), ∃ t, exec .drop s = .next t ∧
    exec .rsvdEdge s = .next { t with flags := { t.flags with inErr := true } } ∧
    ∀ ts, ¬ Accepted ts s.dec →
      exec (.fe ts) s = .next { t with flags := { t.flags with inErr := true } } ∧
      exec (.re ts) s = .next { t with flags := { t.flags with inErr := true } }

/-- R131: an accepted edge in `DiscoverClock`, of either polarity. -/
def Obligations.DiscoverEdgeFollowsItsRule : Prop :=
  ∀ (s : State) (ts : Tick), Accepted ts s.dec → s.dec.dstate = .discoverClock →
    let first := { timed ts s.dec with dcPrevValid := true }
    let recorded :=
      { first with
        samples := s.dec.samples.set s.dec.sampleCnt.toNat (ts - s.dec.lastTs)
        sampleCnt := s.dec.sampleCnt + 1 }
    let done :=
      { calibrate Config.dlrx recorded with
        dstate := .synchronizing, ref := refAt ts, refValid := true }
    let d :=
      if s.dec.dcPrevValid = false then first
      else if recorded.sampleCnt = 500 then done else recorded
    exec (.fe ts) s = .next { s with dec := d, out := edgeOutputs none } ∧
    exec (.re ts) s = .next { s with dec := d, out := edgeOutputs none }

/-- R132, R133, R134: with the 500 samples sorted, one minimum and one maximum dropped, T0 the smallest
left, H and F the two classes: the three estimates, exact, and their bounds. -/
def Obligations.CalibrationFollowsItsRules : Prop :=
  ∀ (d : Decoder) (S : List Nat), d.samples.length = 500 →
    S.Perm (d.samples.map BitVec.toNat) → S.Pairwise (· ≤ ·) →
    let R := S.tail.dropLast
    let T0 := S.getD 1 0
    let H := R.filter (fun x => 2 * x ≤ 3 * T0)
    let F := R.filter (fun x => 3 * T0 < 2 * x)
    let c := calibrate Config.dlrx d
    T0 ∈ H ∧ c.halfT.toNat = H.sum / H.length ∧
    c.fullEst.toNat = (if F = [] then 0 else F.sum / F.length) ∧
    c.sens.toNat = 6 * c.halfT.toNat / 10 ∧ c.calValid = true ∧
    ((∀ x ∈ S, 1 ≤ x) → 1 ≤ T0 ∧ T0 ≤ c.halfT.toNat ∧ c.sens.toNat < c.halfT.toNat) ∧
    c = { d with halfT := c.halfT, fullEst := c.fullEst, sens := c.sens, calValid := true }

/-- R142: with every sample within 5% of T or of 2T and at least two of the half-bit kind, the classes are
exact and `HALF_T` is within 5% of T. -/
def Obligations.ClockDiscoveryConverges : Prop :=
  ∀ (d : Decoder) (T : Nat), d.samples.length = 500 →
    (∀ x ∈ d.samples, (19 * T ≤ 20 * x.toNat ∧ 20 * x.toNat ≤ 21 * T) ∨
      (38 * T ≤ 20 * x.toNat ∧ 20 * x.toNat ≤ 42 * T)) →
    2 ≤ (d.samples.filter (fun x => 20 * x.toNat ≤ 21 * T)).length →
    let R := trimmed (d.samples.map BitVec.toNat)
    halfClass Config.dlrx R = R.filter (fun x => 20 * x ≤ 21 * T) ∧
    19 * T ≤ 20 * (calibrate Config.dlrx d).halfT.toNat ∧
    20 * (calibrate Config.dlrx d).halfT.toNat ≤ 21 * T

/-- R135: the interval class and its bands under `FLOOR`, and where `TRUNC` would differ. -/
def Obligations.IntervalClassHasItsBands : Prop :=
  ∀ (sens halfT : Tick) (e : Int), 0 < halfT.toNat →
    (∀ n : Int, intervalClass Config.dlrx sens halfT e = n ↔
      (n - 1) * halfT.toNat + sens.toNat ≤ e ∧ e < n * halfT.toNat + sens.toNat) ∧
    (∀ p : Params, p.quotRound = .trunc →
      ((sens.toNat : Int) ≤ e →
        intervalClass p sens halfT e = intervalClass Config.dlrx sens halfT e) ∧
      (-(halfT.toNat : Int) < e - sens.toNat → e - sens.toNat < 0 → intervalClass p sens halfT e = 1))

/-- R141, R43, R131: the decoder's times are exact: no reference, recorded sample or elapsed time wraps. -/
def Obligations.DecoderTimesAreExact : Prop :=
  (∀ ts : Tick, (refAt ts).toInt = ts.toNat) ∧
  (∀ ts h : Tick, (refBefore ts h).toInt = (ts.toNat : Int) - h.toNat) ∧
  (∀ (ts : Tick) (d : Decoder), DecoderInv d → d.dstate = .discoverClock → d.dcPrevValid = true →
    Accepted ts d →
      let e := recordSample ts d
      (e.samples.getD d.sampleCnt.toNat 0).toNat = ts.toNat - d.lastTs.toNat ∧
      d.lastTs.toNat < ts.toNat ∧ e.sampleCnt.toNat = d.sampleCnt.toNat + 1 ∧
      ∀ j, j ≠ d.sampleCnt.toNat → e.samples.getD j 0 = d.samples.getD j 0) ∧
  (∀ (ts : Tick) (d : Decoder), DecoderInv d → d.dstate ≠ .discoverClock → d.refValid = true →
    Accepted ts d → 1 ≤ elapsed ts d.ref ∧ elapsed ts d.ref < 2 ^ 65)

/-- R136: an accepted edge in `Synchronizing`; only a falling edge at interval 2 synchronises. -/
def Obligations.SyncingEdgeFollowsItsRule : Prop :=
  ∀ (s : State) (ts : Tick), Accepted ts s.dec → s.dec.dstate = .synchronizing →
    let d := timed ts s.dec
    let waits := { d with ref := refAt ts, refValid := true }
    let synced :=
      { d with dstate := .synchronized, last := 0, ref := refBefore ts s.dec.halfT, refValid := true }
    exec (.fe ts) s = .next
      { s with
        dec := if s.dec.refValid = true ∧ edgeClass ts s.dec = 2 then synced else waits
        out := edgeOutputs none } ∧
    exec (.re ts) s = .next { s with dec := waits, out := edgeOutputs none }

/-- R137, R138: an accepted edge in `Synchronized`: the acceptance table, what an emission hands to the
framer and shows on the tap, and the violation. -/
def Obligations.SyncedEdgeFollowsItsTable : Prop :=
  ∀ (s : State) (ts : Tick), Accepted ts s.dec → s.dec.dstate = .synchronized →
    let i := edgeClass ts s.dec
    let d := timed ts s.dec
    let boundary := { s with dec := { d with ref := refAt ts, last := 2 }, out := edgeOutputs none }
    let emitted (n : BitVec 2) (code : BitVec 2) :=
      { s with
        dec := { d with ref := refBefore ts s.dec.halfT, last := n }, out := edgeOutputs (some code) }
    let violation :=
      { s with
        dec := { d with dstate := .synchronizing, ref := refAt ts, refValid := true, last := 0 }
        cnt := { s.cnt with invalid := s.cnt.invalid + 1 }
        flags := { s.flags with errNew := true }
        out := edgeOutputs (some 0b10) }
    if i = 2 ∧ s.dec.last ≠ 2 then
      exec (.fe ts) s = .next boundary ∧ exec (.re ts) s = .next boundary
    else if i = 1 ∧ s.dec.last = 2 then
      exec (.fe ts) s = .next (framer Config.dlrx .high (emitted 1 0b01)) ∧
      exec (.re ts) s = .next (framer Config.dlrx .low (emitted 1 0b00))
    else if i = 3 ∧ s.dec.last ≠ 2 then
      exec (.fe ts) s = .next (framer Config.dlrx .high (emitted 3 0b01)) ∧
      exec (.re ts) s = .next (framer Config.dlrx .low (emitted 3 0b00))
    else
      exec (.fe ts) s = .next (framer Config.dlrx .invalid violation) ∧
      exec (.re ts) s = .next (framer Config.dlrx .invalid violation)

/-- R139, R140: a drop marker, by decoder state. -/
def Obligations.DropFollowsItsRule : Prop :=
  ∀ s : State,
    let c := { s.cnt with drop := s.cnt.drop + 1 }
    exec .drop s = .next
      (match s.dec.dstate with
      | .discoverClock =>
        { s with dec := { s.dec with dcPrevValid := false }, cnt := c, out := edgeOutputs none }
      | .synchronizing =>
        { s with dec := { s.dec with refValid := false }, cnt := c, out := edgeOutputs none }
      | .synchronized =>
        framer Config.dlrx .invalid
          { s with
            dec := { s.dec with dstate := .synchronizing, refValid := false, last := 0 }
            cnt := { c with invalid := s.cnt.invalid + 1 }
            flags := { s.flags with errNew := true }
            out := edgeOutputs (some 0b10) })

/-- R310: an edge accepted in `Synchronized` by its class lies in the band of its nominal place: 2T after
the reference, or T or 3T after it; none else is accepted. -/
def Obligations.SynchronizedTolerances : Prop :=
  ∀ (ts : Tick) (d : Decoder), 0 < d.halfT.toNat →
    let e := elapsed ts d.ref
    let T : Int := d.halfT.toNat
    let S : Int := d.sens.toNat
    (accepts (edgeClass ts d) d.last = true ↔
      (d.last = 2 ∧ S ≤ e ∧ e < T + S) ∨ (d.last ≠ 2 ∧ T + S ≤ e ∧ e < 3 * T + S)) ∧
    (d.last ≠ 2 → T + S ≤ e → e < 2 * T + S → edgeClass ts d = 2) ∧
    (d.last ≠ 2 → 2 * T + S ≤ e → e < 3 * T + S → edgeClass ts d = 3)

/-- R109, R137, R138: a synchronised decoder whose reference is the start of the last bit decodes the edges
of every valid Manchester waveform that follows to exactly its bits, in order, with no `Invalid`: those are
the symbols on the tap, the framer is left as those symbols leave it, and the decoder stays synchronised.
The waveform begins after a mid-bit edge (`LAST` is not 2); `HALF_T` = 1 is left out, where `SENS` = 0 puts an
edge at 2T in class 3. -/
def Obligations.EveryValidWaveformIsDecoded : Prop :=
  ∀ (s : State) (t0 : Nat) (level : Bool) (bits : List Bool),
    s.dec.dstate = .synchronized → s.dec.last ≠ 2 → s.dec.sens.toNat = 6 * s.dec.halfT.toNat / 10 →
    2 ≤ s.dec.halfT.toNat → s.dec.ref.toInt = (t0 : Int) - 2 * s.dec.halfT.toNat →
    s.dec.lastTs.toNat < t0 → t0 + 2 * s.dec.halfT.toNat * bits.length < 2 ^ 64 →
      let run := statesOf ((manchesterEdges s.dec.halfT.toNat t0 level bits).map edgeInstr) s
      let t := run.getLastD s
      let f := runFramer (bits.map bitSymbol) s
      run.length = (manchesterEdges s.dec.halfT.toNat t0 level bits).length ∧
      run.filterMap (fun u => u.out.symTap) = bits.map (fun b => if b then 0b01 else 0b00) ∧
      t.dec.dstate = .synchronized ∧
      t.dec.ref.toInt = (t0 : Int) + 2 * s.dec.halfT.toNat * ((bits.length : Int) - 1) ∧
      t.frm = f.frm ∧ t.rawSlot = f.rawSlot ∧ t.snap = f.snap ∧ t.res = f.res ∧ t.cnt = f.cnt ∧
      t.flags = f.flags

/-! ### The framer (42_dlbus_framer.md) -/

/-- The symbol rows complete: a symbol word goes to the framer, and no port strobe pulses (log entry 8). -/
def Obligations.SymbolWordsDriveTheFramer : Prop :=
  ∀ s : State,
    exec .symLow s = .next (framer Config.dlrx .low { s with out := Outputs.silent }) ∧
    exec .symHigh s = .next (framer Config.dlrx .high { s with out := Outputs.silent }) ∧
    exec .symInvalid s = .next (framer Config.dlrx .invalid { s with out := Outputs.silent })

/-- R104: symbol code 11 is refused, in every state, and no row puts it on the tap. -/
def Obligations.ReservedSymbolIsRefused : Prop :=
  (∀ s : State, exec .symRsvd s = .refused .symCodeReserved) ∧
  ∀ (s t : State) (i : Instr), exec i s = .next t → t.out.symTap ≠ some 0b11

/-- R171: each symbol in `AwaitingSync`. -/
def Obligations.AwaitSyncFollowsItsRule : Prop :=
  ∀ s : State, s.frm.fstate = .awaitingSync →
    framer Config.dlrx .high s =
      { s with frm :=
        { s.frm with syncCnt := if s.frm.syncCnt = 255 then 255 else s.frm.syncCnt + 1 } } ∧
    framer Config.dlrx .invalid s = { s with frm := { s.frm with syncCnt := 0 } } ∧
    framer Config.dlrx .low s =
      { s with frm :=
        if 16 ≤ s.frm.syncCnt.toNat then
          { s.frm with
            fstate := .receiving, bufLen := 0, shift := 0, bitIndex := 1, syncCnt := 0 }
        else { s.frm with syncCnt := 0 } }

/-- R172: `Invalid` in `Receiving`, at any bit index. -/
def Obligations.InvalidDiscardsTheFrame : Prop :=
  ∀ s : State, s.frm.fstate = .receiving →
    framer Config.dlrx .invalid s =
      { s with
        frm := { s.frm with fstate := .awaitingSync, syncCnt := 0, bitIndex := 0, bufLen := 0 } }

/-- R173, R174, R175: start bit, data bits and stop bit of a byte record. -/
def Obligations.ByteRecordBitsFollowTheirRules : Prop :=
  ∀ s : State, s.frm.fstate = .receiving →
    (s.frm.bitIndex = 0 →
      framer Config.dlrx .low s = { s with frm := { s.frm with shift := 0, bitIndex := 1 } }) ∧
    (∀ k : Fin 8, s.frm.bitIndex.val = k.val + 1 →
      framer Config.dlrx .low s =
        { s with frm := { s.frm with bitIndex := ⟨k.val + 2, Nat.add_lt_add_right k.isLt 2⟩ } } ∧
      ∃ v : Byte, (∀ j, v.getLsbD j = (s.frm.shift.getLsbD j || decide (j = k.val))) ∧
        framer Config.dlrx .high s =
          { s with frm := { s.frm with shift := v, bitIndex := ⟨k.val + 2, Nat.add_lt_add_right k.isLt 2⟩ } }) ∧
    (s.frm.bitIndex = 9 →
      framer Config.dlrx .high s =
        { s with frm :=
          { s.frm with
            buf := if s.frm.bufLen.toNat < 16 then s.frm.buf.set s.frm.bufLen.toNat s.frm.shift
              else s.frm.buf
            bufLen := if s.frm.bufLen = 255 then 255 else s.frm.bufLen + 1
            bitIndex := 0 } })

/-- R176: `Low` where the stop bit belongs. -/
def Obligations.LowStopBitIsAFramingError : Prop :=
  ∀ s : State, s.frm.fstate = .receiving → s.frm.bitIndex = 9 →
    framer Config.dlrx .low s =
      { s with
        frm := { s.frm with fstate := .awaitingSync, syncCnt := 0, bitIndex := 0, bufLen := 0 }
        cnt := { s.cnt with framing := s.cnt.framing + 1 }
        flags := { s.flags with errNew := true } }

/-- R177: `High` where the next start bit belongs completes the frame: the raw slot with its flags and
counter, then the parse of that slot, then the framer awaiting sync with one `High` counted. -/
def Obligations.MissingStartBitCompletesTheFrame : Prop :=
  ∀ s : State, s.frm.fstate = .receiving → s.frm.bitIndex = 0 →
    ∃ slot : RawSlot,
      slot.raw.length = 16 ∧ slot.rawLen = s.frm.bufLen ∧ slot.rawSeq = s.rawSlot.rawSeq + 1 ∧
      (∀ j, j < 16 → slot.raw.getD j 0#8 =
        if j < s.frm.bufLen.toNat then s.frm.buf.getD j 0#8 else 0#8) ∧
      ∀ out : Outputs,
        let completed :=
          { s with
            rawSlot := slot
            flags :=
              { s.flags with
                rawOverrun := if s.flags.rawReady then true else s.flags.rawOverrun
                rawReady := true }
            cnt := { s.cnt with frames := s.cnt.frames + 1 }
            out := out }
        framer Config.dlrx .high { s with out := out } =
          { parse Config.dlrx completed with
            frm := { s.frm with fstate := .awaitingSync, syncCnt := 1, bitIndex := 0, bufLen := 0 } }

/-- R178: the framer completes exactly the frames of a stream, bytes in order, when each comes after a sync
gap and the last is followed by a `High`. -/
def Obligations.FramerReassemblesTheStream : Prop :=
  ∀ (s : State) (frames : List (List Byte)), s.frm.fstate = .awaitingSync → s.frm.buf.length = 16 →
    (∀ f ∈ frames, 1 ≤ f.length ∧ f.length ≤ 16) →
      framesOf (frames.flatMap frameSymbols ++ [.high]) s = frames

/-- R171, R175, R177, R178: one frame of any length after a gap of at least 16 `High`: it completes once,
its length saturates at 255, its first 16 bytes are in the slot. -/
def Obligations.FrameOfAnyLengthCompletesOnce : Prop :=
  ∀ (s : State) (n : Nat) (bytes : List Byte), s.frm.fstate = .awaitingSync → s.frm.buf.length = 16 →
    16 ≤ s.frm.syncCnt.toNat + n → bytes ≠ [] →
      let t := runFramer (List.replicate n .high ++ bytes.flatMap byteSymbols ++ [.high]) s
      t.cnt.frames = s.cnt.frames + 1 ∧ t.rawSlot.rawSeq = s.rawSlot.rawSeq + 1 ∧
      t.rawSlot.rawLen.toNat = min bytes.length 255 ∧
      (∀ j, j < 16 → t.rawSlot.raw.getD j 0#8 = bytes.getD j 0#8) ∧
      t.frm.fstate = .awaitingSync ∧ t.frm.syncCnt = 1

/-- R179: in `Receiving` a symbol never changes the sync count unless it ends the reception, which only
`Invalid`, a `Low` stop bit or a missing start bit does. -/
def Obligations.DataNeverResynchronisesTheFramer : Prop :=
  ∀ (s : State) (y : Symbol), s.frm.fstate = .receiving →
    let t := framer Config.dlrx y s
    (t.frm.fstate = .receiving → t.frm.syncCnt = s.frm.syncCnt) ∧
    (t.frm.fstate = .awaitingSync ↔
      y = .invalid ∨ (y = .low ∧ s.frm.bitIndex = 9) ∨ (y = .high ∧ s.frm.bitIndex = 0))

/-! ### The parser (43_uvr42_parser.md) -/

/-- R200, R201, R202, R203, R206: the checks in their order name the result, and every parse counts. -/
def Obligations.ParseChecksSizeDeviceRange : Prop :=
  ∀ s : State,
    (parse Config.dlrx s).res =
      { code :=
          if s.rawSlot.rawLen ≠ 10 then .size
          else if s.rawSlot.raw.getD 0 0#8 ≠ 0x10 then .device
          else if AllInRange s.rawSlot.raw then .ok else .temp
        seq := s.res.seq + 1 }

/-- R205, R207, R208, R210: a good frame publishes exactly its decoding, at the wall time, and nothing else
changes. -/
def Obligations.GoodFramePublishesItsDecoding : Prop :=
  ∀ s : State, s.rawSlot.rawLen = 10 → s.rawSlot.raw.getD 0 0#8 = 0x10 → AllInRange s.rawSlot.raw →
    ∃ n : Snapshot,
      n.valid = true ∧ n.ts = s.env.wallTime ∧ n.seq = s.snap.seq + 1 ∧
      n.t1.toInt = tenths s.rawSlot.raw 1 ∧ n.t2.toInt = tenths s.rawSlot.raw 2 ∧
      n.t3.toInt = tenths s.rawSlot.raw 3 ∧ n.t4.toInt = tenths s.rawSlot.raw 4 ∧
      (n.out1 = true ↔ s.rawSlot.raw.getD 9 0#8 &&& 0x20 ≠ 0) ∧
      (n.out2 = true ↔ s.rawSlot.raw.getD 9 0#8 &&& 0x40 ≠ 0) ∧
      parse Config.dlrx s =
        { s with
          res := { code := .ok, seq := s.res.seq + 1 }
          snap := n
          flags := { s.flags with snapNew := true }
          cnt := { s.cnt with ok := s.cnt.ok + 1 } }

/-- R209: a rejected frame raises its event, counts under its code, and keeps the snapshot. -/
def Obligations.BadFrameIsCountedAndSnapshotKept : Prop :=
  ∀ s : State, (parse Config.dlrx s).res.code ≠ .ok →
    let code := (parse Config.dlrx s).res.code
    parse Config.dlrx s =
      { s with
        res := { code := code, seq := s.res.seq + 1 }
        flags := { s.flags with errNew := true }
        cnt :=
          { s.cnt with
            size := s.cnt.size + (if code = .size then 1 else 0)
            device := s.cnt.device + (if code = .device then 1 else 0)
            temp := s.cnt.temp + (if code = .temp then 1 else 0) } }

/-- R170, R177 and R210 together: the `High`, here a symbol word of its own (log entry 8), that ends a ten-byte frame of device 0x10 publishes it if all four
temperatures are in range, and else leaves the snapshot. -/
def Obligations.CompletedFrameReachesTheSnapshot : Prop :=
  ∀ (s : State), s.frm.fstate = .receiving → s.frm.bitIndex = 0 → s.frm.bufLen = 10 →
    s.frm.buf.length = 16 → s.frm.buf.getD 0 0#8 = 0x10 →
    ∃ t, exec .symHigh s = .next t ∧
      (AllInRange s.frm.buf → t.res.code = .ok ∧ t.snap.valid = true ∧
        t.snap.t1.toInt = tenths s.frm.buf 1 ∧ t.snap.t2.toInt = tenths s.frm.buf 2 ∧
        t.snap.t3.toInt = tenths s.frm.buf 3 ∧ t.snap.t4.toInt = tenths s.frm.buf 4 ∧
        (t.snap.out1 = true ↔ s.frm.buf.getD 9 0#8 &&& 0x20 ≠ 0) ∧
        (t.snap.out2 = true ↔ s.frm.buf.getD 9 0#8 &&& 0x40 ≠ 0)) ∧
      (¬ AllInRange s.frm.buf → t.res.code = .temp ∧ t.snap = s.snap)

/-- R137, R177, R207, R210 together: the edges of a valid UVR42 frame after its sync gap, sent to a synchronised
decoder and an awaiting framer and closed by one more `High`, publish exactly that frame's decoding. -/
def Obligations.EdgesOfAGoodFrameReachTheSnapshot : Prop :=
  ∀ (s : State) (t0 : Nat) (level : Bool) (bytes : List Byte),
    s.dec.dstate = .synchronized → s.dec.last ≠ 2 → s.dec.sens.toNat = 6 * s.dec.halfT.toNat / 10 →
    2 ≤ s.dec.halfT.toNat → s.dec.ref.toInt = (t0 : Int) - 2 * s.dec.halfT.toNat →
    s.dec.lastTs.toNat < t0 → t0 + 2 * s.dec.halfT.toNat * 117 < 2 ^ 64 →
    s.frm.fstate = .awaitingSync → s.frm.buf.length = 16 →
    bytes.length = 10 → bytes.getD 0 0#8 = 0x10 → AllInRange bytes →
      let edges := manchesterEdges s.dec.halfT.toNat t0 level (frameBits bytes ++ [true])
      let t := (statesOf (edges.map edgeInstr) s).getLastD s
      t.res = { code := .ok, seq := s.res.seq + 1 } ∧ t.snap.valid = true ∧ t.snap.seq = s.snap.seq + 1 ∧
      t.snap.t1.toInt = tenths bytes 1 ∧ t.snap.t2.toInt = tenths bytes 2 ∧
      t.snap.t3.toInt = tenths bytes 3 ∧ t.snap.t4.toInt = tenths bytes 4 ∧
      t.snap.out1 = (bytes.getD 9 0#8).getLsbD 5 ∧ t.snap.out2 = (bytes.getD 9 0#8).getLsbD 6 ∧
      t.snap.ts = s.env.wallTime ∧
      t.cnt = { s.cnt with frames := s.cnt.frames + 1, ok := s.cnt.ok + 1 } ∧
      t.dec.dstate = .synchronized ∧ t.frm.fstate = .awaitingSync ∧ t.frm.syncCnt = 1

/-! ### The host port (44_host_interface.md, 10_state.md section 5) -/

/-- R230, R232: a host word does what HOSTACC does: a read returns the word at its offset, a write is the
register write of its offset and data. -/
def Obligations.HostWordIsReadOrRegisterWrite : Prop :=
  ∀ (s : State) (w : BitVec 41),
    let a := w.extractLsb' 34 6
    let d := w.extractLsb' 0 32
    exec (decode (.host w)) s = .next
      (if w.getLsbD 40 then regWrite a d { s with out := hostOutputs none }
      else { s with out := hostOutputs (some (regRead a s)) })

/-- R86, R231: `RD` shows the word and changes no state, so a second read shows the same word. -/
def Obligations.ReadChangesNoState : Prop :=
  ∀ (s : State) (a : BitVec 6),
    exec (.rd a) s = .next { s with out := hostOutputs (some (regRead a s)) } ∧
    ∀ (t : State) (b : BitVec 6), exec (.rd a) s = .next t → regRead b t = regRead b s

/-- R233, R234: `CTRL` takes the three enables; `STATUS` clears exactly the flags written as 1. -/
def Obligations.CtrlAndStatusWritesFollowTheirRules : Prop :=
  ∀ s : State,
    (∀ d : BitVec 3, exec (.wrCtrl d) s = .next { s with ctrl := d, out := hostOutputs none }) ∧
    (∀ e : BitVec 5, exec (.wrStatusAck e) s = .next
      { s with
        flags :=
          { rawReady := if e.getLsbD 0 then false else s.flags.rawReady
            rawOverrun := if e.getLsbD 1 then false else s.flags.rawOverrun
            snapNew := if e.getLsbD 2 then false else s.flags.snapNew
            errNew := if e.getLsbD 3 then false else s.flags.errNew
            inErr := if e.getLsbD 4 then false else s.flags.inErr }
        out := hostOutputs none })

/-- R237: restart, and what it leaves. -/
def Obligations.RestartFollowsItsRule : Prop :=
  ∀ s : State, exec .wrCmdRestart s = .next
    { s with
      dec :=
        { s.dec with
          dstate := .discoverClock, sampleCnt := 0, dcPrevValid := false, refValid := false, last := 0 }
      frm := { s.frm with fstate := .awaitingSync, syncCnt := 0, bitIndex := 0, bufLen := 0 }
      out := hostOutputs none }

/-- R235, R236: `CMD` with bit 0 clear, and every register but `CTRL`, `CMD` and `STATUS`, take no effect from
a write. -/
def Obligations.OtherWritesHaveNoEffect : Prop :=
  ∀ s : State,
    exec .wrCmdNop s = .next { s with out := hostOutputs none } ∧
    ∀ a : BitVec 6, (Instr.wrOther a).wellFormed = true →
      exec (.wrOther a) s = .next { s with out := hostOutputs none }

/-- R86: performing a host write twice in a row gives the state performing it once gives. -/
def Obligations.HostAccessesAreIdempotent : Prop :=
  ∀ (s t : State) (i : Instr), i.port = .host → exec i s = .next t → exec i t = .next t

/-- R62, R270: the bits of `STATUS`, and the interrupt line in bit 4; R34, R45: the number of each state. -/
def Obligations.StatusReadsItsFields : Prop :=
  ∀ s : State,
    (s.irq = true ↔
      (s.flags.rawReady = true ∧ s.ctrl.getLsbD 0 = true) ∨
      (s.flags.snapNew = true ∧ s.ctrl.getLsbD 1 = true) ∨
      ((s.flags.errNew = true ∨ s.flags.inErr = true) ∧ s.ctrl.getLsbD 2 = true)) ∧
    (regRead 3 s).toNat =
      (match s.dec.dstate with | .discoverClock => 0 | .synchronizing => 1 | .synchronized => 2) +
      4 * (match s.frm.fstate with | .awaitingSync => 0 | .receiving => 1) +
      8 * bit s.dec.calValid + 16 * bit s.irq +
      256 * bit s.flags.rawReady + 512 * bit s.flags.rawOverrun + 1024 * bit s.flags.snapNew +
      2048 * bit s.flags.errNew + 4096 * bit s.flags.inErr

/-- R30, R58 to R61, R63, R64, R82: identification, control and the decoder and framer views. -/
def Obligations.StageRegistersReadTheirFields : Prop :=
  ∀ s : State,
    regRead 0 s = 0x444C4201 ∧ (regRead 1 s).toNat = s.ctrl.toNat ∧ regRead 2 s = 0 ∧
    (regRead 4 s).toNat = s.dec.sampleCnt.toNat ∧
    (regRead 5 s).toNat + 2 ^ 32 * (regRead 6 s).toNat = s.dec.halfT.toNat ∧
    (regRead 7 s).toNat + 2 ^ 32 * (regRead 8 s).toNat = s.dec.sens.toNat ∧
    (regRead 9 s).toNat + 2 ^ 32 * (regRead 10 s).toNat = s.dec.fullEst.toNat ∧
    (regRead 11 s).toNat =
      s.frm.syncCnt.toNat + 2 ^ 8 * s.frm.bitIndex.val + 2 ^ 16 * s.frm.shift.toNat +
      2 ^ 24 * s.frm.bufLen.toNat ∧
    (regRead 12 s).toNat = s.dec.last.toNat + 4 * bit s.dec.refValid + 8 * bit s.dec.dcPrevValid

/-- R50, R51, R53, R54, R55, R57, R65, R66: the slots, the counters and the reserved offsets; R107: the number
of each result. -/
def Obligations.SlotRegistersReadTheirFields : Prop :=
  ∀ s : State,
    regRead 16 s = s.rawSlot.rawSeq ∧ (regRead 17 s).toNat = s.rawSlot.rawLen.toNat ∧
    (∀ k j, k < 4 → j < 4 →
      (regRead (BitVec.ofNat 6 (18 + k)) s).extractLsb' (8 * j) 8 = s.rawSlot.raw.getD (4 * k + j) 0#8) ∧
    regRead 24 s = s.snap.seq ∧
    (regRead 25 s).toNat = bit s.snap.valid + 2 * bit s.snap.out1 + 4 * bit s.snap.out2 ∧
    (regRead 26 s).toNat = s.snap.t1.toNat + 2 ^ 16 * s.snap.t2.toNat ∧
    (regRead 27 s).toNat = s.snap.t3.toNat + 2 ^ 16 * s.snap.t4.toNat ∧
    (regRead 28 s).toNat + 2 ^ 32 * (regRead 29 s).toNat = s.snap.ts.toNat ∧
    (regRead 30 s).toNat =
      (match s.res.code with | .none => 0 | .ok => 1 | .size => 2 | .device => 3 | .temp => 4) ∧
    regRead 31 s = s.res.seq ∧
    regRead 32 s = s.cnt.drop ∧ regRead 33 s = s.cnt.invalid ∧ regRead 34 s = s.cnt.framing ∧
    regRead 35 s = s.cnt.frames ∧ regRead 36 s = s.cnt.ok ∧ regRead 37 s = s.cnt.size ∧
    regRead 38 s = s.cnt.device ∧ regRead 39 s = s.cnt.temp ∧
    ∀ n : BitVec 6, n ∈ [13#6, 14#6, 15#6, 22#6, 23#6] ∨ 40 ≤ n.toNat → regRead n s = 0

/-! ### Events, flags and whole-machine rules (10_state.md, 60_exceptions.md, 70_reset_and_hazards.md) -/

/-- R230, R260, R272: nothing traps or faults: in every state every row but the refused symbol code
completes. -/
def Obligations.EveryRowCompletesInEveryState : Prop :=
  ∀ (s : State) (i : Instr), i ≠ .symRsvd → ∃ t, exec i s = .next t

/-- R33: a sticky flag, once set, is cleared by no row but the acknowledgement. -/
def Obligations.StickyFlagsAreClearedOnlyByAck : Prop :=
  ∀ (s t : State) (i : Instr), exec i s = .next t → (∀ e, i ≠ .wrStatusAck e) →
    (s.flags.rawReady = true → t.flags.rawReady = true) ∧
    (s.flags.rawOverrun = true → t.flags.rawOverrun = true) ∧
    (s.flags.snapNew = true → t.flags.snapNew = true) ∧
    (s.flags.errNew = true → t.flags.errNew = true) ∧
    (s.flags.inErr = true → t.flags.inErr = true)

/-- R56, R260, R261: `ERR_NEW` after a row that counts an error is set, and a row that finds it clear sets
it exactly when it counts one of the five error events. -/
def Obligations.ErrorEventsAreCountedAndFlagged : Prop :=
  ∀ (s t : State) (i : Instr), exec i s = .next t →
    let counted :=
      t.cnt.invalid ≠ s.cnt.invalid ∨ t.cnt.framing ≠ s.cnt.framing ∨ t.cnt.size ≠ s.cnt.size ∨
        t.cnt.device ≠ s.cnt.device ∨ t.cnt.temp ≠ s.cnt.temp
    (counted → t.flags.errNew = true) ∧
    (s.flags.errNew = false → (t.flags.errNew = true ↔ counted))

/-- R57, R236: no row clears or presets a counter: each stays or counts one. -/
def Obligations.CountersStayOrCountOne : Prop :=
  ∀ (s t : State) (i : Instr), exec i s = .next t →
    (t.cnt.drop = s.cnt.drop ∨ t.cnt.drop = s.cnt.drop + 1) ∧
    (t.cnt.invalid = s.cnt.invalid ∨ t.cnt.invalid = s.cnt.invalid + 1) ∧
    (t.cnt.framing = s.cnt.framing ∨ t.cnt.framing = s.cnt.framing + 1) ∧
    (t.cnt.frames = s.cnt.frames ∨ t.cnt.frames = s.cnt.frames + 1) ∧
    (t.cnt.ok = s.cnt.ok ∨ t.cnt.ok = s.cnt.ok + 1) ∧
    (t.cnt.size = s.cnt.size ∨ t.cnt.size = s.cnt.size + 1) ∧
    (t.cnt.device = s.cnt.device ∨ t.cnt.device = s.cnt.device + 1) ∧
    (t.cnt.temp = s.cnt.temp ∨ t.cnt.temp = s.cnt.temp + 1)

/-- R38, R39, R40, R41, R304: who writes the last timestamp and the calibration results. -/
def Obligations.TimestampsAndCalibrationHaveOneWriter : Prop :=
  ∀ (s t : State) (i : Instr), exec i s = .next t →
    ((t.dec.lastTs = s.dec.lastTs ∧ t.dec.lastTsValid = s.dec.lastTsValid) ∨
      ∃ ts, (i = .fe ts ∨ i = .re ts) ∧ Accepted ts s.dec ∧
        t.dec.lastTs = ts ∧ t.dec.lastTsValid = true) ∧
    ((t.dec.halfT = s.dec.halfT ∧ t.dec.sens = s.dec.sens ∧ t.dec.fullEst = s.dec.fullEst ∧
        t.dec.calValid = s.dec.calValid) ∨
      (s.dec.dstate = .discoverClock ∧ t.dec.dstate = .synchronizing ∧ t.dec.calValid = true))

/-- R308: the state changes a row can make, and what makes them. -/
def Obligations.StageTransitionsAreTheTables : Prop :=
  ∀ (s t : State) (i : Instr), exec i s = .next t →
    (t.dec.dstate = s.dec.dstate ∨
      (i = .wrCmdRestart ∧ t.dec.dstate = .discoverClock) ∨
      (s.dec.dstate = .discoverClock ∧ t.dec.dstate = .synchronizing ∧
        s.dec.dcPrevValid = true ∧ s.dec.sampleCnt + 1 = 500) ∨
      (s.dec.dstate = .synchronizing ∧ t.dec.dstate = .synchronized ∧
        ∃ ts, i = .fe ts ∧ edgeClass ts s.dec = 2) ∨
      (s.dec.dstate = .synchronized ∧ t.dec.dstate = .synchronizing ∧ t.out.symTap = some 0b10)) ∧
    (t.frm.fstate = s.frm.fstate ∨ (i = .wrCmdRestart ∧ t.frm.fstate = .awaitingSync) ∨
      (s.frm.fstate = .awaitingSync ∧ t.frm.fstate = .receiving ∧ 16 ≤ s.frm.syncCnt.toNat ∧
        (i = .symLow ∨ t.out.symTap = some 0b00)) ∨
      (s.frm.fstate = .receiving ∧ t.frm.fstate = .awaitingSync ∧
        ((i = .symInvalid ∨ t.out.symTap = some 0b10) ∨
          (t.cnt.framing = s.cnt.framing + 1 ∧ s.frm.bitIndex = 9) ∨
          (t.cnt.frames = s.cnt.frames + 1 ∧ s.frm.bitIndex = 0))))

/-- R103, R143: only an edge-port word performed in `Synchronized` pulses the tap. -/
def Obligations.OnlySynchronizedEmits : Prop :=
  ∀ (s t : State) (i : Instr), exec i s = .next t →
    (t.out.symTap ≠ none → i.port = .edge ∧ s.dec.dstate = .synchronized) ∧
    t.out.edgeReady = (i.port == .edge) ∧ t.out.hostReady = (i.port == .host)

/-- R300: a row that leaves a sequence word leaves every data word of its group. -/
def Obligations.SequenceWordsGuardTheirGroups : Prop :=
  ∀ (s t : State) (i : Instr), exec i s = .next t →
    (regRead 16 t = regRead 16 s → rawGroup t = rawGroup s) ∧
    (regRead 24 t = regRead 24 s → snapGroup t = snapGroup s) ∧
    (regRead 31 t = regRead 31 s → regRead 30 t = regRead 30 s)

/-- The frame of every row: no row touches the input side, and each port's rows leave what no rule lets
them write. -/
def Obligations.FrameOfEveryRow : Prop :=
  ∀ (s t : State) (i : Instr), exec i s = .next t →
    t.env = s.env ∧
    ((∀ d, i ≠ .wrCtrl d) → t.ctrl = s.ctrl) ∧
    (i.port = .sym → t.dec = s.dec) ∧
    (i.port = .host → t.rawSlot = s.rawSlot ∧ t.snap = s.snap ∧ t.res = s.res ∧ t.cnt = s.cnt ∧
      (i ≠ .wrCmdRestart → t.dec = s.dec ∧ t.frm = s.frm) ∧
      ((∀ e, i ≠ .wrStatusAck e) → t.flags = s.flags)) ∧
    (i = .drop ∨ i = .rsvdEdge → t.rawSlot = s.rawSlot ∧ t.snap = s.snap ∧ t.res = s.res) ∧
    (i.port = .edge → s.dec.dstate ≠ .synchronized →
      t.frm = s.frm ∧ t.rawSlot = s.rawSlot ∧ t.snap = s.snap ∧ t.res = s.res)

/-! ### Invariants (70_reset_and_hazards.md R307) -/

/-- The block's invariant holds at reset. -/
def Obligations.ResetMeetsTheBlockInvariant : Prop :=
  BlockInv State.reset

/-- The framer, slot and counter invariant is kept by every step, symbol words among them. -/
def Obligations.EveryStepKeepsTheFramerInvariant : Prop :=
  ∀ s t : State, FramerInv s → step s = .next t → FramerInv t

/-- R307: every step of the block driven at its ports keeps the block's invariant. -/
def Obligations.EveryStepKeepsTheBlockInvariant : Prop :=
  ∀ s t : State, BlockInv s → step s = .next t → BlockInv t

/-- R307: however the ports are driven from reset, while fewer than 2^32 steps have been performed
`SNAP_VALID` is 1 exactly when `CNT_OK` is not 0, and `RES_CODE` is `NONE` exactly when no frame has completed. -/
def Obligations.SnapshotValidExactlyWhenCounted : Prop :=
  ∀ (n : Nat) (schedule : List Input) (t : State), n < 2 ^ 32 →
    Host.Core.run core n { State.reset with env := { State.reset.env with inputs := schedule } } = .next t →
      (t.snap.valid = true ↔ t.cnt.ok ≠ 0) ∧ (t.res.code = .none ↔ t.rawSlot.rawSeq = 0)

/-- R307: a step of any state that meets the framer's invariant keeps `SNAP_VALID` = 1 exactly when `CNT_OK` is
not 0 and `RES_CODE` = `NONE` exactly when `RAW_SEQ` is 0, while neither count is about to wrap. -/
def Obligations.EveryStepKeepsSlotsAgreeing : Prop :=
  ∀ s t : State, FramerInv s → SlotsAgree s → s.cnt.ok.toNat + 1 < 2 ^ 32 → s.cnt.frames.toNat + 1 < 2 ^ 32 →
    step s = .next t → SlotsAgree t
end

