-- ==== Sys2Proof/Laws/State.lean ====
section
/-! SUPPORT. One lemma per field per update: what each named update of the state leaves and writes. -/

namespace Sys2Proof.Machine

@[simp] theorem dlrx_sampleN : Config.dlrx.sampleN = 500 := (rfl)
@[simp] theorem dlrx_sensNum : Config.dlrx.sensNum = 6 := (rfl)
@[simp] theorem dlrx_sensDen : Config.dlrx.sensDen = 10 := (rfl)
@[simp] theorem dlrx_classNum : Config.dlrx.classNum = 3 := (rfl)
@[simp] theorem dlrx_classDen : Config.dlrx.classDen = 2 := (rfl)
@[simp] theorem dlrx_quotRound : Config.dlrx.quotRound = .floor := (rfl)
@[simp] theorem dlrx_syncLen : Config.dlrx.syncLen = 16 := (rfl)
@[simp] theorem dlrx_dataBits : Config.dlrx.dataBits = 8 := (rfl)
@[simp] theorem dlrx_tick : Config.dlrx.tick = 1 := (rfl)
@[simp] theorem dlrx_frameCap : Config.dlrx.frameCap = 16 := (rfl)
@[simp] theorem dlrx_frameLen : Config.dlrx.frameLen = 10 := (rfl)
@[simp] theorem dlrx_deviceId : Config.dlrx.deviceId = 0x10#8 := (rfl)
@[simp] theorem dlrx_tempMinRaw : Config.dlrx.tempMinRaw = -500 := (rfl)
@[simp] theorem dlrx_tempMaxRaw : Config.dlrx.tempMaxRaw = 3000 := (rfl)
@[simp] theorem dlrx_out1Bit : Config.dlrx.out1Bit = 5 := (rfl)
@[simp] theorem dlrx_out2Bit : Config.dlrx.out2Bit = 6 := (rfl)

/-- A timestamp is below 2^64, with the width written out for arithmetic. -/
theorem Tick.toNat_lt (ts : Tick) : ts.toNat < 2 ^ 64 := ts.isLt

/-- The time from one timestamp to a later one is exact. -/
theorem Tick.toNat_sub_of_lt {a b : Tick} (h : a.toNat < b.toNat) : (b - a).toNat = b.toNat - a.toNat :=
  BitVec.toNat_sub_of_le (BitVec.le_def.mpr h.le)

/-- The two words a 64-bit value is read as. -/
theorem lowWord_highWord (v : BitVec 64) :
    (lowWord v).toNat = v.toNat % 2 ^ 32 ∧ (highWord v).toNat = v.toNat / 2 ^ 32 := by
  have := v.isLt
  simp only [lowWord, highWord, BitVec.extractLsb'_toNat, Nat.shiftRight_eq_div_pow, Config.regW]
  omega

/-- A register word is the number its fields are, if these fit. -/
theorem toWord_toNat {n : Nat} (h : n ≤ 32) (v : BitVec n) : (toWord v).toNat = v.toNat :=
  BitVec.toNat_setWidth_of_le h

/-- A register word that one field fills is that field. -/
@[simp] theorem toWord_self (v : BitVec 32) : toWord v = v := BitVec.setWidth_eq v

/-- `RAW_DATAk` is its four bytes. -/
theorem rawDataWord_eq (raw : List Byte) (k : Nat) :
    rawDataWord raw k =
      rawByte raw (4 * k + 3) ++ rawByte raw (4 * k + 2) ++ rawByte raw (4 * k + 1) ++ rawByte raw (4 * k) :=
  toWord_self _

/-- `FRAMER` is its five fields. -/
theorem Framer.view_eq (f : Framer) :
    f.view = f.bufLen ++ f.shift ++ 0#4 ++ BitVec.ofNat 4 f.bitIndex.val ++ f.syncCnt :=
  toWord_self _

/-- `BIT_INDEX` is at most the stop position. -/
theorem Framer.bitIndex_lt (f : Framer) : f.bitIndex.val < 10 := f.bitIndex.isLt

/-- The stop position of this block is 9. -/
@[simp] theorem stopIndex_dlrx : stopIndex Config.dlrx = 9 := rfl

/-- `BIT_INDEX` at the stop position, as an index. -/
@[simp] theorem bitIndex_val_eq_nine (i : Fin (Config.dataBits + 2)) : i.val = 9 ↔ i = 9 :=
  ⟨fun h => Fin.ext h, fun h => congrArg Fin.val h⟩

section raiseEvent
variable (s : State)
@[simp] theorem raiseEvent_dec : (raiseEvent s).dec = s.dec := rfl
@[simp] theorem raiseEvent_frm : (raiseEvent s).frm = s.frm := rfl
@[simp] theorem raiseEvent_rawSlot : (raiseEvent s).rawSlot = s.rawSlot := rfl
@[simp] theorem raiseEvent_snap : (raiseEvent s).snap = s.snap := rfl
@[simp] theorem raiseEvent_res : (raiseEvent s).res = s.res := rfl
@[simp] theorem raiseEvent_flags : (raiseEvent s).flags = { s.flags with errNew := true } := rfl
@[simp] theorem raiseEvent_cnt : (raiseEvent s).cnt = s.cnt := rfl
@[simp] theorem raiseEvent_ctrl : (raiseEvent s).ctrl = s.ctrl := rfl
@[simp] theorem raiseEvent_out : (raiseEvent s).out = s.out := rfl
@[simp] theorem raiseEvent_env : (raiseEvent s).env = s.env := rfl
end raiseEvent

section setInErr
variable (s : State)
@[simp] theorem setInErr_dec : (setInErr s).dec = s.dec := rfl
@[simp] theorem setInErr_frm : (setInErr s).frm = s.frm := rfl
@[simp] theorem setInErr_rawSlot : (setInErr s).rawSlot = s.rawSlot := rfl
@[simp] theorem setInErr_snap : (setInErr s).snap = s.snap := rfl
@[simp] theorem setInErr_res : (setInErr s).res = s.res := rfl
@[simp] theorem setInErr_flags : (setInErr s).flags = { s.flags with inErr := true } := rfl
@[simp] theorem setInErr_cnt : (setInErr s).cnt = s.cnt := rfl
@[simp] theorem setInErr_ctrl : (setInErr s).ctrl = s.ctrl := rfl
@[simp] theorem setInErr_out : (setInErr s).out = s.out := rfl
@[simp] theorem setInErr_env : (setInErr s).env = s.env := rfl
end setInErr

section quiet
variable (s : State)
@[simp] theorem quiet_dec : (quiet s).dec = s.dec := rfl
@[simp] theorem quiet_frm : (quiet s).frm = s.frm := rfl
@[simp] theorem quiet_rawSlot : (quiet s).rawSlot = s.rawSlot := rfl
@[simp] theorem quiet_snap : (quiet s).snap = s.snap := rfl
@[simp] theorem quiet_res : (quiet s).res = s.res := rfl
@[simp] theorem quiet_flags : (quiet s).flags = s.flags := rfl
@[simp] theorem quiet_cnt : (quiet s).cnt = s.cnt := rfl
@[simp] theorem quiet_ctrl : (quiet s).ctrl = s.ctrl := rfl
@[simp] theorem quiet_out : (quiet s).out = Outputs.silent := rfl
@[simp] theorem quiet_env : (quiet s).env = s.env := rfl
end quiet

section beginEdge
variable (s : State)
@[simp] theorem beginEdge_dec : (beginEdge s).dec = s.dec := rfl
@[simp] theorem beginEdge_frm : (beginEdge s).frm = s.frm := rfl
@[simp] theorem beginEdge_rawSlot : (beginEdge s).rawSlot = s.rawSlot := rfl
@[simp] theorem beginEdge_snap : (beginEdge s).snap = s.snap := rfl
@[simp] theorem beginEdge_res : (beginEdge s).res = s.res := rfl
@[simp] theorem beginEdge_flags : (beginEdge s).flags = s.flags := rfl
@[simp] theorem beginEdge_cnt : (beginEdge s).cnt = s.cnt := rfl
@[simp] theorem beginEdge_ctrl : (beginEdge s).ctrl = s.ctrl := rfl
@[simp] theorem beginEdge_out : (beginEdge s).out = Safety.edgeOutputs none := rfl
@[simp] theorem beginEdge_env : (beginEdge s).env = s.env := rfl
end beginEdge

section beginHost
variable (s : State)
@[simp] theorem beginHost_dec : (beginHost s).dec = s.dec := rfl
@[simp] theorem beginHost_frm : (beginHost s).frm = s.frm := rfl
@[simp] theorem beginHost_rawSlot : (beginHost s).rawSlot = s.rawSlot := rfl
@[simp] theorem beginHost_snap : (beginHost s).snap = s.snap := rfl
@[simp] theorem beginHost_res : (beginHost s).res = s.res := rfl
@[simp] theorem beginHost_flags : (beginHost s).flags = s.flags := rfl
@[simp] theorem beginHost_cnt : (beginHost s).cnt = s.cnt := rfl
@[simp] theorem beginHost_ctrl : (beginHost s).ctrl = s.ctrl := rfl
@[simp] theorem beginHost_out : (beginHost s).out = Safety.hostOutputs none := rfl
@[simp] theorem beginHost_env : (beginHost s).env = s.env := rfl
end beginHost

section hostRead
variable (a : BitVec 6) (s : State)
@[simp] theorem hostRead_dec : (hostRead a s).dec = s.dec := rfl
@[simp] theorem hostRead_frm : (hostRead a s).frm = s.frm := rfl
@[simp] theorem hostRead_rawSlot : (hostRead a s).rawSlot = s.rawSlot := rfl
@[simp] theorem hostRead_snap : (hostRead a s).snap = s.snap := rfl
@[simp] theorem hostRead_res : (hostRead a s).res = s.res := rfl
@[simp] theorem hostRead_flags : (hostRead a s).flags = s.flags := rfl
@[simp] theorem hostRead_cnt : (hostRead a s).cnt = s.cnt := rfl
@[simp] theorem hostRead_ctrl : (hostRead a s).ctrl = s.ctrl := rfl
@[simp] theorem hostRead_out : (hostRead a s).out = Safety.hostOutputs (some (regRead a s)) := rfl
@[simp] theorem hostRead_env : (hostRead a s).env = s.env := rfl
end hostRead

section ctrlWrite
variable (d : BitVec 3) (s : State)
@[simp] theorem ctrlWrite_dec : (ctrlWrite d s).dec = s.dec := rfl
@[simp] theorem ctrlWrite_frm : (ctrlWrite d s).frm = s.frm := rfl
@[simp] theorem ctrlWrite_rawSlot : (ctrlWrite d s).rawSlot = s.rawSlot := rfl
@[simp] theorem ctrlWrite_snap : (ctrlWrite d s).snap = s.snap := rfl
@[simp] theorem ctrlWrite_res : (ctrlWrite d s).res = s.res := rfl
@[simp] theorem ctrlWrite_flags : (ctrlWrite d s).flags = s.flags := rfl
@[simp] theorem ctrlWrite_cnt : (ctrlWrite d s).cnt = s.cnt := rfl
@[simp] theorem ctrlWrite_ctrl : (ctrlWrite d s).ctrl = d := rfl
@[simp] theorem ctrlWrite_out : (ctrlWrite d s).out = s.out := rfl
@[simp] theorem ctrlWrite_env : (ctrlWrite d s).env = s.env := rfl
end ctrlWrite

section statusWrite
variable (e : BitVec 5) (s : State)
@[simp] theorem statusWrite_dec : (statusWrite e s).dec = s.dec := rfl
@[simp] theorem statusWrite_frm : (statusWrite e s).frm = s.frm := rfl
@[simp] theorem statusWrite_rawSlot : (statusWrite e s).rawSlot = s.rawSlot := rfl
@[simp] theorem statusWrite_snap : (statusWrite e s).snap = s.snap := rfl
@[simp] theorem statusWrite_res : (statusWrite e s).res = s.res := rfl
@[simp] theorem statusWrite_cnt : (statusWrite e s).cnt = s.cnt := rfl
@[simp] theorem statusWrite_ctrl : (statusWrite e s).ctrl = s.ctrl := rfl
@[simp] theorem statusWrite_out : (statusWrite e s).out = s.out := rfl
@[simp] theorem statusWrite_env : (statusWrite e s).env = s.env := rfl
end statusWrite

section restart
variable (s : State)
@[simp] theorem restart_dec : (restart s).dec = { s.dec with dstate := .discoverClock, sampleCnt := 0, dcPrevValid := false, refValid := false, last := 0 } := rfl
@[simp] theorem restart_frm : (restart s).frm = { s.frm with fstate := .awaitingSync, syncCnt := 0, bitIndex := 0, bufLen := 0 } := rfl
@[simp] theorem restart_rawSlot : (restart s).rawSlot = s.rawSlot := rfl
@[simp] theorem restart_snap : (restart s).snap = s.snap := rfl
@[simp] theorem restart_res : (restart s).res = s.res := rfl
@[simp] theorem restart_flags : (restart s).flags = s.flags := rfl
@[simp] theorem restart_cnt : (restart s).cnt = s.cnt := rfl
@[simp] theorem restart_ctrl : (restart s).ctrl = s.ctrl := rfl
@[simp] theorem restart_out : (restart s).out = s.out := rfl
@[simp] theorem restart_env : (restart s).env = s.env := rfl
end restart

section discard
variable (s : State)
@[simp] theorem discard_dec : (discard s).dec = s.dec := rfl
@[simp] theorem discard_frm : (discard s).frm = { s.frm with fstate := .awaitingSync, syncCnt := 0, bitIndex := 0, bufLen := 0 } := rfl
@[simp] theorem discard_rawSlot : (discard s).rawSlot = s.rawSlot := rfl
@[simp] theorem discard_snap : (discard s).snap = s.snap := rfl
@[simp] theorem discard_res : (discard s).res = s.res := rfl
@[simp] theorem discard_flags : (discard s).flags = s.flags := rfl
@[simp] theorem discard_cnt : (discard s).cnt = s.cnt := rfl
@[simp] theorem discard_ctrl : (discard s).ctrl = s.ctrl := rfl
@[simp] theorem discard_out : (discard s).out = s.out := rfl
@[simp] theorem discard_env : (discard s).env = s.env := rfl
end discard

section noteInvalid
variable (s : State)
@[simp] theorem noteInvalid_dec : (noteInvalid s).dec = s.dec := rfl
@[simp] theorem noteInvalid_frm : (noteInvalid s).frm = s.frm := rfl
@[simp] theorem noteInvalid_rawSlot : (noteInvalid s).rawSlot = s.rawSlot := rfl
@[simp] theorem noteInvalid_snap : (noteInvalid s).snap = s.snap := rfl
@[simp] theorem noteInvalid_res : (noteInvalid s).res = s.res := rfl
@[simp] theorem noteInvalid_flags : (noteInvalid s).flags = { s.flags with errNew := true } := rfl
@[simp] theorem noteInvalid_cnt : (noteInvalid s).cnt = { s.cnt with invalid := s.cnt.invalid + 1 } := rfl
@[simp] theorem noteInvalid_ctrl : (noteInvalid s).ctrl = s.ctrl := rfl
@[simp] theorem noteInvalid_out : (noteInvalid s).out = s.out := rfl
@[simp] theorem noteInvalid_env : (noteInvalid s).env = s.env := rfl
end noteInvalid

section noteTime
variable (ts : Tick) (s : State)
@[simp] theorem noteTime_dec : (noteTime ts s).dec = Safety.timed ts s.dec := rfl
@[simp] theorem noteTime_frm : (noteTime ts s).frm = s.frm := rfl
@[simp] theorem noteTime_rawSlot : (noteTime ts s).rawSlot = s.rawSlot := rfl
@[simp] theorem noteTime_snap : (noteTime ts s).snap = s.snap := rfl
@[simp] theorem noteTime_res : (noteTime ts s).res = s.res := rfl
@[simp] theorem noteTime_flags : (noteTime ts s).flags = s.flags := rfl
@[simp] theorem noteTime_cnt : (noteTime ts s).cnt = s.cnt := rfl
@[simp] theorem noteTime_ctrl : (noteTime ts s).ctrl = s.ctrl := rfl
@[simp] theorem noteTime_out : (noteTime ts s).out = s.out := rfl
@[simp] theorem noteTime_env : (noteTime ts s).env = s.env := rfl
end noteTime

section withInputs
variable (l : List Input) (s : State)
@[simp] theorem withInputs_dec : (withInputs l s).dec = s.dec := rfl
@[simp] theorem withInputs_frm : (withInputs l s).frm = s.frm := rfl
@[simp] theorem withInputs_rawSlot : (withInputs l s).rawSlot = s.rawSlot := rfl
@[simp] theorem withInputs_snap : (withInputs l s).snap = s.snap := rfl
@[simp] theorem withInputs_res : (withInputs l s).res = s.res := rfl
@[simp] theorem withInputs_flags : (withInputs l s).flags = s.flags := rfl
@[simp] theorem withInputs_cnt : (withInputs l s).cnt = s.cnt := rfl
@[simp] theorem withInputs_ctrl : (withInputs l s).ctrl = s.ctrl := rfl
@[simp] theorem withInputs_out : (withInputs l s).out = s.out := rfl
@[simp] theorem withInputs_env : (withInputs l s).env = { s.env with inputs := l } := rfl
end withInputs

section resetElements
variable (s : State)
@[simp] theorem resetElements_dec : (resetElements Config.dlrx s).dec = State.reset.dec := rfl
@[simp] theorem resetElements_frm : (resetElements Config.dlrx s).frm = State.reset.frm := rfl
@[simp] theorem resetElements_rawSlot : (resetElements Config.dlrx s).rawSlot = State.reset.rawSlot := rfl
@[simp] theorem resetElements_snap : (resetElements Config.dlrx s).snap = State.reset.snap := rfl
@[simp] theorem resetElements_res : (resetElements Config.dlrx s).res = State.reset.res := rfl
@[simp] theorem resetElements_flags : (resetElements Config.dlrx s).flags = State.reset.flags := rfl
@[simp] theorem resetElements_cnt : (resetElements Config.dlrx s).cnt = State.reset.cnt := rfl
@[simp] theorem resetElements_ctrl : (resetElements Config.dlrx s).ctrl = State.reset.ctrl := rfl
@[simp] theorem resetElements_out : (resetElements Config.dlrx s).out = State.reset.out := rfl
@[simp] theorem resetElements_env : (resetElements Config.dlrx s).env = s.env := rfl
end resetElements

section driveWall
variable (v : BitVec 64) (s : State)
@[simp] theorem driveWall_dec : (driveWall v s).dec = s.dec := rfl
@[simp] theorem driveWall_frm : (driveWall v s).frm = s.frm := rfl
@[simp] theorem driveWall_rawSlot : (driveWall v s).rawSlot = s.rawSlot := rfl
@[simp] theorem driveWall_snap : (driveWall v s).snap = s.snap := rfl
@[simp] theorem driveWall_res : (driveWall v s).res = s.res := rfl
@[simp] theorem driveWall_flags : (driveWall v s).flags = s.flags := rfl
@[simp] theorem driveWall_cnt : (driveWall v s).cnt = s.cnt := rfl
@[simp] theorem driveWall_ctrl : (driveWall v s).ctrl = s.ctrl := rfl
@[simp] theorem driveWall_out : (driveWall v s).out = Outputs.silent := rfl
@[simp] theorem driveWall_env : (driveWall v s).env = { s.env with wallTime := v } := rfl
end driveWall

section reset
@[simp] theorem reset_dec_dstate : State.reset.dec.dstate = .discoverClock := rfl
@[simp] theorem reset_dec_sampleCnt : State.reset.dec.sampleCnt = 0 := rfl
@[simp] theorem reset_dec_dcPrevValid : State.reset.dec.dcPrevValid = false := rfl
@[simp] theorem reset_dec_lastTs : State.reset.dec.lastTs = 0 := rfl
@[simp] theorem reset_dec_lastTsValid : State.reset.dec.lastTsValid = false := rfl
@[simp] theorem reset_dec_halfT : State.reset.dec.halfT = 0 := rfl
@[simp] theorem reset_dec_sens : State.reset.dec.sens = 0 := rfl
@[simp] theorem reset_dec_fullEst : State.reset.dec.fullEst = 0 := rfl
@[simp] theorem reset_dec_calValid : State.reset.dec.calValid = false := rfl
@[simp] theorem reset_dec_ref : State.reset.dec.ref = 0 := rfl
@[simp] theorem reset_dec_refValid : State.reset.dec.refValid = false := rfl
@[simp] theorem reset_dec_last : State.reset.dec.last = 0 := rfl
@[simp] theorem reset_frm_fstate : State.reset.frm.fstate = .awaitingSync := rfl
@[simp] theorem reset_frm_syncCnt : State.reset.frm.syncCnt = 0 := rfl
@[simp] theorem reset_frm_bitIndex : State.reset.frm.bitIndex = 0 := rfl
@[simp] theorem reset_frm_shift : State.reset.frm.shift = 0 := rfl
@[simp] theorem reset_frm_buf : State.reset.frm.buf = List.replicate 16 0 := rfl
@[simp] theorem reset_frm_bufLen : State.reset.frm.bufLen = 0 := rfl
@[simp] theorem reset_rawSlot : State.reset.rawSlot = ⟨List.replicate 16 0, 0, 0⟩ := rfl
@[simp] theorem reset_snap : State.reset.snap = ⟨false, 0, 0, 0, 0, false, false, 0, 0⟩ := rfl
@[simp] theorem reset_res : State.reset.res = ⟨.none, 0⟩ := rfl
@[simp] theorem reset_flags : State.reset.flags = ⟨false, false, false, false, false⟩ := rfl
@[simp] theorem reset_cnt : State.reset.cnt = ⟨0, 0, 0, 0, 0, 0, 0, 0⟩ := rfl
@[simp] theorem reset_ctrl : State.reset.ctrl = 0 := rfl
@[simp] theorem reset_out : State.reset.out = Outputs.silent := rfl
@[simp] theorem reset_env : State.reset.env = ⟨true, 0, [], 0⟩ := rfl

/-- Every register but `ID` reads 0 at reset (70_reset_and_hazards.md R290). -/
theorem regRead_resetElements (s : State) (n : BitVec 6) :
    regRead n (resetElements Config.dlrx s) = if n = 0 then 0x444C4201 else 0 := by
  have h : ∀ n : BitVec 6, regRead n State.reset = if n = 0 then 0x444C4201 else 0 := by decide
  exact h n

@[simp] theorem silent_edgeReady : Outputs.silent.edgeReady = false := rfl
@[simp] theorem silent_hostReady : Outputs.silent.hostReady = false := rfl
@[simp] theorem silent_symTap : Outputs.silent.symTap = none := rfl
@[simp] theorem silent_hostRdata : Outputs.silent.hostRdata = none := rfl
end reset

end Sys2Proof.Machine
end

