-- ==== Sys2Proof/Laws/Parser.lean ====
section
/-! SUPPORT. Everything a parse can do (43_uvr42_parser.md). -/

namespace Sys2Proof.Machine

/-- `sext_16` is the two's complement reading of the bits. -/
theorem sext16_eq_toInt (v : BitVec 16) : sext16 v = v.toInt := by
  have hv := v.isLt
  have hm : v.getLsbD 15 = v.msb := by simp [BitVec.msb_eq_getLsbD_last]
  rw [sext16, hm, BitVec.toInt_eq_msb_cond]
  norm_num

/-- The validator's list of temperatures is the list of the tenths of R203. -/
theorem temperatures_eq (raw : List Byte) :
    temperatures raw = [1, 2, 3, 4].map fun i => Safety.tenths raw i := by
  simp [temperatures, Safety.tenths, sext16_eq_toInt, tempBits, rawByte]

/-- The range check of R206 in terms of the tenths of R203. -/
theorem temperatures_all (raw : List Byte) :
    (temperatures raw).all (tempInRange Config.dlrx) = true ↔ Safety.AllInRange raw := by
  simp [temperatures_eq, tempInRange, Safety.AllInRange]

/-- The result of the checks, in their order. -/
theorem parseCode_eq (slot : RawSlot) :
    parseCode Config.dlrx slot =
      if slot.rawLen ≠ 10 then .size
      else if slot.raw.getD 0 0#8 ≠ 0x10 then .device
      else if Safety.AllInRange slot.raw then .ok else .temp := by
  have hl : (slot.rawLen.toNat ≠ Config.dlrx.frameLen) ↔ slot.rawLen ≠ 10 := by
    rw [ne_eq, ne_eq, ← BitVec.toNat_inj]; rfl
  unfold parseCode
  simp only [hl, temperatures_all]
  rfl

theorem parse_res (s : State) :
    (parse Config.dlrx s).res = { code := parseCode Config.dlrx s.rawSlot, seq := s.res.seq + 1 } := by
  unfold parse
  cases h : parseCode Config.dlrx s.rawSlot <;> simp [publish, reject]

/-- Parsing a frame that passes publishes it. -/
theorem parse_of_ok {s : State} (h : parseCode Config.dlrx s.rawSlot = .ok) :
    parse Config.dlrx s =
      publish Config.dlrx { s with res := { code := .ok, seq := s.res.seq + 1 } } := by
  simp [parse, h]

/-- Parsing a frame that fails rejects it under its code. -/
theorem parse_of_not_ok {s : State} (h : parseCode Config.dlrx s.rawSlot ≠ .ok) :
    parse Config.dlrx s =
      { s with
        res := { code := parseCode Config.dlrx s.rawSlot, seq := s.res.seq + 1 }
        flags := { s.flags with errNew := true }
        cnt :=
          { s.cnt with
            size := s.cnt.size + (if parseCode Config.dlrx s.rawSlot = .size then 1 else 0)
            device := s.cnt.device + (if parseCode Config.dlrx s.rawSlot = .device then 1 else 0)
            temp := s.cnt.temp + (if parseCode Config.dlrx s.rawSlot = .temp then 1 else 0) } } := by
  have hn : parseCode Config.dlrx s.rawSlot ≠ .none := by
    rw [parseCode_eq]; split_ifs <;> simp
  unfold parse
  cases hc : parseCode Config.dlrx s.rawSlot <;> simp_all [reject, raiseEvent]

section frame
variable (s : State)
@[simp] theorem parse_dec : (parse Config.dlrx s).dec = s.dec := by
  unfold parse; cases h : parseCode Config.dlrx s.rawSlot <;> simp [publish, reject]
@[simp] theorem parse_frm : (parse Config.dlrx s).frm = s.frm := by
  unfold parse; cases h : parseCode Config.dlrx s.rawSlot <;> simp [publish, reject]
@[simp] theorem parse_rawSlot : (parse Config.dlrx s).rawSlot = s.rawSlot := by
  unfold parse; cases h : parseCode Config.dlrx s.rawSlot <;> simp [publish, reject]
@[simp] theorem parse_ctrl : (parse Config.dlrx s).ctrl = s.ctrl := by
  unfold parse; cases h : parseCode Config.dlrx s.rawSlot <;> simp [publish, reject]
@[simp] theorem parse_out : (parse Config.dlrx s).out = s.out := by
  unfold parse; cases h : parseCode Config.dlrx s.rawSlot <;> simp [publish, reject]
@[simp] theorem parse_env : (parse Config.dlrx s).env = s.env := by
  unfold parse; cases h : parseCode Config.dlrx s.rawSlot <;> simp [publish, reject]
@[simp] theorem parse_cnt_drop : (parse Config.dlrx s).cnt.drop = s.cnt.drop := by
  unfold parse; cases h : parseCode Config.dlrx s.rawSlot <;> simp [publish, reject]
@[simp] theorem parse_cnt_invalid : (parse Config.dlrx s).cnt.invalid = s.cnt.invalid := by
  unfold parse; cases h : parseCode Config.dlrx s.rawSlot <;> simp [publish, reject]
@[simp] theorem parse_cnt_framing : (parse Config.dlrx s).cnt.framing = s.cnt.framing := by
  unfold parse; cases h : parseCode Config.dlrx s.rawSlot <;> simp [publish, reject]
@[simp] theorem parse_cnt_frames : (parse Config.dlrx s).cnt.frames = s.cnt.frames := by
  unfold parse; cases h : parseCode Config.dlrx s.rawSlot <;> simp [publish, reject]
@[simp] theorem parse_flags_rawReady : (parse Config.dlrx s).flags.rawReady = s.flags.rawReady := by
  unfold parse; cases h : parseCode Config.dlrx s.rawSlot <;> simp [publish, reject]
@[simp] theorem parse_flags_rawOverrun : (parse Config.dlrx s).flags.rawOverrun = s.flags.rawOverrun := by
  unfold parse; cases h : parseCode Config.dlrx s.rawSlot <;> simp [publish, reject]
@[simp] theorem parse_flags_inErr : (parse Config.dlrx s).flags.inErr = s.flags.inErr := by
  unfold parse; cases h : parseCode Config.dlrx s.rawSlot <;> simp [publish, reject]
end frame

/-- What a parse leaves besides the result: either a good frame's publication or one rejection. -/
theorem parse_cases (s : State) :
    (parseCode Config.dlrx s.rawSlot = .ok ∧ (parse Config.dlrx s).snap.seq = s.snap.seq + 1 ∧
      (parse Config.dlrx s).snap.valid = true ∧
      (parse Config.dlrx s).flags = { s.flags with snapNew := true } ∧
      (parse Config.dlrx s).cnt = { s.cnt with ok := s.cnt.ok + 1 }) ∨
    (parseCode Config.dlrx s.rawSlot ≠ .ok ∧ (parse Config.dlrx s).snap = s.snap ∧
      (parse Config.dlrx s).flags = { s.flags with errNew := true } ∧
      ((parse Config.dlrx s).cnt = { s.cnt with size := s.cnt.size + 1 } ∨
        (parse Config.dlrx s).cnt = { s.cnt with device := s.cnt.device + 1 } ∨
        (parse Config.dlrx s).cnt = { s.cnt with temp := s.cnt.temp + 1 })) := by
  by_cases h : parseCode Config.dlrx s.rawSlot = .ok
  · left
    rw [parse_of_ok h]
    simp [publish, h]
  · right
    have hn : parseCode Config.dlrx s.rawSlot ≠ .none := by
      rw [parseCode_eq]; split_ifs <;> simp
    rw [parse_of_not_ok h]
    cases hc : parseCode Config.dlrx s.rawSlot <;> simp_all

end Sys2Proof.Machine
end

