-- ==== Sys2Proof/Laws/Framer.lean ====
section
/-! SUPPORT. Everything the framer can do with one symbol (42_dlbus_framer.md). -/

namespace Sys2Proof.Machine

/-- The saturating count, without `min`. -/
theorem satSucc_eq (v : BitVec 8) : satSucc v = if v = 255 then 255 else v + 1 := by
  revert v; decide

theorem satSucc_toNat (v : BitVec 8) : (satSucc v).toNat = min (v.toNat + 1) 255 := by
  simp [satSucc]

/-- A saturating count is never back at 0. -/
theorem satSucc_ne_zero (v : BitVec 8) : satSucc v ≠ 0 := by
  revert v; decide

/-- The completed slot has all its bytes. -/
@[simp] theorem completedSlot_length (f : Framer) (slot : RawSlot) :
    (completedSlot Config.dlrx f slot).raw.length = 16 := by
  simp [completedSlot]

/-- Byte j of the completed slot. -/
theorem completedSlot_getD (f : Framer) (slot : RawSlot) (j : Nat) :
    (completedSlot Config.dlrx f slot).raw.getD j 0#8 =
      if j < f.bufLen.toNat ∧ j < 16 then f.buf.getD j 0#8 else 0#8 := by
  by_cases hj : j < 16
  · simp [completedSlot, List.getD_eq_getElem?_getD, hj]
  · simp [completedSlot, List.getD_eq_getElem?_getD, hj]

/-- A completion: what it writes besides what the parse writes, and the parse's own writes. -/
theorem complete_eq (s : State) :
    complete Config.dlrx s =
      { parse Config.dlrx
          { s with
            rawSlot := completedSlot Config.dlrx s.frm s.rawSlot
            flags :=
              { s.flags with rawOverrun := s.flags.rawOverrun || s.flags.rawReady, rawReady := true }
            cnt := { s.cnt with frames := s.cnt.frames + 1 } } with
        frm := { s.frm with fstate := .awaitingSync, syncCnt := 1, bitIndex := 0, bufLen := 0 } } := by
  simp [complete]

/-- A framing error in one update. -/
theorem framingError_eq (s : State) :
    framingError s =
      { s with
        frm := { s.frm with fstate := .awaitingSync, syncCnt := 0, bitIndex := 0, bufLen := 0 }
        cnt := { s.cnt with framing := s.cnt.framing + 1 }
        flags := { s.flags with errNew := true } } := rfl

/-- Everything one symbol can do: reception goes on (only framer state moves), or starts, or is discarded
by `Invalid`; or a framing error; or a completion. -/
theorem framer_cases (y : Symbol) (s : State) :
    (∃ f : Framer, framer Config.dlrx y s = { s with frm := f } ∧
      (f.fstate = s.frm.fstate ∨
        (s.frm.fstate = .awaitingSync ∧ f.fstate = .receiving ∧ y = .low ∧ 16 ≤ s.frm.syncCnt.toNat) ∨
        (s.frm.fstate = .receiving ∧ f.fstate = .awaitingSync ∧ y = .invalid))) ∨
    (framer Config.dlrx y s = framingError s ∧ s.frm.fstate = .receiving ∧ s.frm.bitIndex = 9 ∧ y = .low) ∨
    (framer Config.dlrx y s = complete Config.dlrx s ∧ s.frm.fstate = .receiving ∧
      s.frm.bitIndex = 0 ∧ y = .high) := by
  cases hf : s.frm.fstate with
  | awaitingSync =>
    refine .inl ⟨(framer Config.dlrx y s).frm, ?_, ?_⟩ <;>
      cases y <;> simp [framer, awaitSync, hf] <;> split_ifs <;> simp [*]
  | receiving =>
    cases y with
    | invalid => exact .inl ⟨(discard s).frm, by simp [framer, hf]; rfl, by simp⟩
    | low =>
      by_cases h0 : s.frm.bitIndex = 0
      · exact .inl ⟨(startBit s).frm, by simp [framer, hf, h0]; rfl, .inl hf⟩
      · by_cases h9 : s.frm.bitIndex = 9
        · exact .inr (.inl ⟨by simp [framer, hf, h9], rfl, h9, rfl⟩)
        · exact .inl ⟨(dataBit .low s).frm, by simp [framer, hf, h0, h9]; rfl, .inl hf⟩
    | high =>
      by_cases h0 : s.frm.bitIndex = 0
      · exact .inr (.inr ⟨by simp [framer, hf, h0], rfl, h0, rfl⟩)
      · by_cases h9 : s.frm.bitIndex = 9
        · exact .inl ⟨(stopBit Config.dlrx s).frm, by simp [framer, hf, h9]; rfl, .inl hf⟩
        · exact .inl ⟨(dataBit .high s).frm, by simp [framer, hf, h0, h9]; rfl, .inl hf⟩

/-- `Invalid` only moves the framer to a clean `AwaitingSync`, whatever its state, but that an awaiting
framer keeps its other fields. -/
theorem framer_invalid (s : State) :
    framer Config.dlrx .invalid s =
      { s with frm :=
        if s.frm.fstate = .receiving then
          { s.frm with fstate := .awaitingSync, syncCnt := 0, bitIndex := 0, bufLen := 0 }
        else { s.frm with syncCnt := 0 } } := by
  cases hf : s.frm.fstate <;> simp [framer, awaitSync, discard, hf]

/-- Everything one symbol leaves in the slots, flags and counters: nothing, or a framing error, or a completion
with the outcome of its parse. -/
theorem framer_outcome (y : Symbol) (s : State) :
    let t := framer Config.dlrx y s
    (t.cnt = s.cnt ∧ t.flags = s.flags ∧ t.rawSlot = s.rawSlot ∧ t.snap = s.snap ∧ t.res = s.res) ∨
    (t.cnt = { s.cnt with framing := s.cnt.framing + 1 } ∧ t.flags = { s.flags with errNew := true } ∧
      t.rawSlot = s.rawSlot ∧ t.snap = s.snap ∧ t.res = s.res) ∨
    (t.rawSlot = completedSlot Config.dlrx s.frm s.rawSlot ∧
      t.res.seq = s.res.seq + 1 ∧
      let c := { s.cnt with frames := s.cnt.frames + 1 }
      let f := { s.flags with rawOverrun := s.flags.rawOverrun || s.flags.rawReady, rawReady := true }
      ((t.res.code = .ok ∧ t.snap.seq = s.snap.seq + 1 ∧ t.snap.valid = true ∧
        t.flags = { f with snapNew := true } ∧ t.cnt = { c with ok := s.cnt.ok + 1 }) ∨
      (t.res.code ≠ .ok ∧ t.res.code ≠ .none ∧ t.snap = s.snap ∧ t.flags = { f with errNew := true } ∧
        (t.cnt = { c with size := s.cnt.size + 1 } ∨ t.cnt = { c with device := s.cnt.device + 1 } ∨
          t.cnt = { c with temp := s.cnt.temp + 1 })))) := by
  intro t
  rcases framer_cases y s with ⟨f, h, -⟩ | ⟨h, -⟩ | ⟨h, -⟩
  · left; simp [t, h]
  · right; left; simp [t, h, framingError_eq]
  · right; right
    rw [complete_eq] at h
    simp only [t, h, parse_rawSlot, parse_res, true_and]
    have hn : ∀ sl, parseCode Config.dlrx sl ≠ .none := by
      intro sl; rw [parseCode_eq]; split_ifs <;> simp
    rcases parse_cases
        { s with
          rawSlot := completedSlot Config.dlrx s.frm s.rawSlot
          flags := { s.flags with rawOverrun := s.flags.rawOverrun || s.flags.rawReady, rawReady := true }
          cnt := { s.cnt with frames := s.cnt.frames + 1 } } with ⟨h1, h2, h3, h4, h5⟩ | ⟨h1, h2, h3, h4⟩
    · left; exact ⟨h1, h2, h3, h4, h5⟩
    · right; exact ⟨h1, hn _, h2, h3, h4⟩

section frame
variable (y : Symbol) (s : State)

@[simp] theorem framer_dec : (framer Config.dlrx y s).dec = s.dec := by
  rcases framer_cases y s with ⟨f, h, -⟩ | ⟨h, -⟩ | ⟨h, -⟩ <;> simp [h, framingError_eq, complete_eq]
@[simp] theorem framer_ctrl : (framer Config.dlrx y s).ctrl = s.ctrl := by
  rcases framer_cases y s with ⟨f, h, -⟩ | ⟨h, -⟩ | ⟨h, -⟩ <;> simp [h, framingError_eq, complete_eq]
@[simp] theorem framer_out : (framer Config.dlrx y s).out = s.out := by
  rcases framer_cases y s with ⟨f, h, -⟩ | ⟨h, -⟩ | ⟨h, -⟩ <;> simp [h, framingError_eq, complete_eq]
@[simp] theorem framer_env : (framer Config.dlrx y s).env = s.env := by
  rcases framer_cases y s with ⟨f, h, -⟩ | ⟨h, -⟩ | ⟨h, -⟩ <;> simp [h, framingError_eq, complete_eq]

end frame

end Sys2Proof.Machine
end

