-- ==== Sys2Proof/Laws/Decoder.lean ====
section
/-! SUPPORT. Everything the decoder can do with one edge or drop marker (41_manchester_decoder.md). -/

namespace Sys2Proof.Machine

open Sys2Proof.Safety

/-- A reference at an edge is the edge's time. -/
theorem refAt_toInt (ts : Tick) : (refAt ts).toInt = ts.toNat := by
  have := Tick.toNat_lt ts
  rw [refAt, BitVec.toInt_ofInt, Int.bmod_eq_of_le] <;> (norm_num; try omega)

/-- A reference one half-bit before an edge is exact, below 0 included. -/
theorem refBefore_toInt (ts h : Tick) : (refBefore ts h).toInt = (ts.toNat : Int) - h.toNat := by
  have := Tick.toNat_lt ts
  have := Tick.toNat_lt h
  rw [refBefore, BitVec.toInt_ofInt, Int.bmod_eq_of_le] <;> norm_num <;> omega

/-- The class of this block is a floor quotient. -/
theorem intervalClass_eq (sens halfT : Tick) (e : Int) :
    intervalClass Config.dlrx sens halfT e = (e - sens.toNat) / halfT.toNat + 1 := by
  simp [intervalClass, quot, Int.fdiv_eq_ediv_of_nonneg]

/-- An edge is diverted exactly when it is not accepted. -/
theorem notIncreasing_eq_false {ts : Tick} {d : Decoder} :
    notIncreasing ts d = false ↔ Accepted ts d := by
  simp only [notIncreasing, Bool.and_eq_false_iff, decide_eq_false_iff_not, not_le, Accepted]
  cases d.lastTsValid <;> simp

theorem notIncreasing_eq_true {ts : Tick} {d : Decoder} :
    notIncreasing ts d = true ↔ ¬ Accepted ts d := by
  rw [← notIncreasing_eq_false, Bool.not_eq_false]

/-- The accepted rows of the table of R137. -/
theorem accepts_iff (i : Int) (last : BitVec 2) :
    accepts i last = true ↔ (i = 1 ∧ last = 2) ∨ ((i = 2 ∨ i = 3) ∧ last ≠ 2) := by
  simp [accepts]

/-- Calibration writes the three estimates and `CAL_VALID` and nothing else. -/
theorem calibrate_frame (d : Decoder) :
    calibrate Config.dlrx d =
      { d with
        halfT := (calibrate Config.dlrx d).halfT
        fullEst := (calibrate Config.dlrx d).fullEst
        sens := (calibrate Config.dlrx d).sens
        calValid := true } := rfl

/-- What an accepted edge leaves in `DiscoverClock`: the first edge, a recorded interval, or the calibration. -/
theorem discoverEdge_cases (ts : Tick) (s : State) :
    (s.dec.dcPrevValid = false ∧
      discoverEdge Config.dlrx ts s = { s with dec := { s.dec with dcPrevValid := true } }) ∨
    (s.dec.dcPrevValid = true ∧ s.dec.sampleCnt + 1 ≠ 500 ∧
      discoverEdge Config.dlrx ts s =
        { s with dec := { recordSample ts s.dec with dcPrevValid := true } }) ∨
    (s.dec.dcPrevValid = true ∧ s.dec.sampleCnt + 1 = 500 ∧
      discoverEdge Config.dlrx ts s =
        { s with
          dec :=
            { calibrate Config.dlrx (recordSample ts s.dec) with
              dstate := .synchronizing, ref := refAt ts, refValid := true, dcPrevValid := true } }) := by
  have hc : (recordSample ts s.dec).sampleCnt.toNat = Config.dlrx.sampleN ↔ s.dec.sampleCnt + 1 = 500 := by
    rw [← BitVec.toNat_inj]; rfl
  cases hv : s.dec.dcPrevValid with
  | false => exact .inl ⟨rfl, by simp [discoverEdge, hv]⟩
  | true =>
    by_cases h : s.dec.sampleCnt + 1 = 500
    · refine .inr (.inr ⟨rfl, h, ?_⟩)
      simp only [discoverEdge, hv, if_true]
      rw [if_pos (hc.mpr h)]
    · refine .inr (.inl ⟨rfl, h, ?_⟩)
      simp only [discoverEdge, hv, if_true]
      rw [if_neg (mt hc.mp h)]

/-- What an accepted edge leaves in `Synchronizing`. -/
theorem syncingEdge_cases (ts : Tick) (pol : Polarity) (s : State) :
    (s.dec.refValid = true ∧ edgeClass ts s.dec = 2 ∧ pol = .falling ∧
      syncingEdge Config.dlrx ts pol s =
        { s with
          dec := { s.dec with dstate := .synchronized, last := 0, ref := refBefore ts s.dec.halfT } }) ∨
    (¬(s.dec.refValid = true ∧ edgeClass ts s.dec = 2 ∧ pol = .falling) ∧
      syncingEdge Config.dlrx ts pol s =
        { s with dec := { s.dec with ref := refAt ts, refValid := true } }) := by
  unfold syncingEdge edgeClass
  cases hv : s.dec.refValid with
  | false => simp
  | true =>
    by_cases h : intervalClass Config.dlrx s.dec.sens s.dec.halfT (elapsed ts s.dec.ref) = 2 ∧ pol = .falling
    · simp [h]
    · simp only [h, if_true, if_false, true_and, not_false_eq_true]
      simp [hv.symm]

/-- What an accepted edge leaves in `Synchronized`, with the symbol it hands on. -/
theorem syncedEdge_cases (ts : Tick) (pol : Polarity) (s : State) :
    (edgeClass ts s.dec = 2 ∧ s.dec.last ≠ 2 ∧
      syncedEdge Config.dlrx ts pol s = ({ s with dec := { s.dec with last := 2, ref := refAt ts } }, none)) ∨
    ((edgeClass ts s.dec = 1 ∧ s.dec.last = 2 ∨ edgeClass ts s.dec = 3 ∧ s.dec.last ≠ 2) ∧
      syncedEdge Config.dlrx ts pol s =
        ({ s with
            dec :=
              { s.dec with
                last := BitVec.ofInt 2 (edgeClass ts s.dec), ref := refBefore ts s.dec.halfT } },
          some pol.symbol)) ∨
    (accepts (edgeClass ts s.dec) s.dec.last = false ∧
      syncedEdge Config.dlrx ts pol s =
        (noteInvalid
          { s with
            dec := { s.dec with dstate := .synchronizing, ref := refAt ts, refValid := true, last := 0 } },
          some .invalid)) := by
  have hs : syncedEdge Config.dlrx ts pol s = _ := rfl
  unfold syncedEdge at hs
  change _ = (if accepts (edgeClass ts s.dec) s.dec.last = true then
      if edgeClass ts s.dec = 2 then _ else _ else _) at hs
  by_cases ha : accepts (edgeClass ts s.dec) s.dec.last = true
  · rw [if_pos ha] at hs
    rw [accepts_iff] at ha
    by_cases h2 : edgeClass ts s.dec = 2
    · rw [if_pos h2] at hs
      refine .inl ⟨h2, ?_, hs⟩
      rcases ha with ⟨h, -⟩ | ⟨-, h⟩
      · omega
      · exact h
    · rw [if_neg h2] at hs
      refine .inr (.inl ⟨?_, hs⟩)
      rcases ha with ⟨h, h'⟩ | ⟨h, h'⟩
      · exact .inl ⟨h, h'⟩
      · exact .inr ⟨by omega, h'⟩
  · rw [if_neg ha] at hs
    exact .inr (.inr ⟨by simpa using ha, hs⟩)

/-- Handing on `Invalid`: the tap pulses and the framer drops what it has. -/
theorem emit_eq (y : Symbol) (s : State) :
    emit Config.dlrx y s = framer Config.dlrx y { s with out := { s.out with symTap := some y.code } } := rfl

/-- A drop marker, by decoder state. -/
theorem dropMarker_eq (s : State) :
    dropMarker Config.dlrx s =
      match s.dec.dstate with
      | .discoverClock =>
        { s with
          dec := { s.dec with dcPrevValid := false }, cnt := { s.cnt with drop := s.cnt.drop + 1 } }
      | .synchronizing =>
        { s with dec := { s.dec with refValid := false }, cnt := { s.cnt with drop := s.cnt.drop + 1 } }
      | .synchronized =>
        framer Config.dlrx .invalid
          { s with
            dec := { s.dec with dstate := .synchronizing, refValid := false, last := 0 }
            cnt := { s.cnt with drop := s.cnt.drop + 1, invalid := s.cnt.invalid + 1 }
            flags := { s.flags with errNew := true }
            out := { s.out with symTap := some 0b10 } } := by
  cases hd : s.dec.dstate <;> (simp [dropMarker, decoderDrop, hd]; try rfl)

/-- Setting `INERR` before a drop marker or after it is the same. -/
theorem divert_eq (s : State) :
    divert Config.dlrx s =
      { dropMarker Config.dlrx s with
        flags := { (dropMarker Config.dlrx s).flags with inErr := true } } := by
  unfold divert
  rw [dropMarker_eq, dropMarker_eq]
  cases hd : s.dec.dstate <;> simp [hd, framer_invalid, setInErr]

/-- Everything an edge-port edge can do. -/
theorem edge_cases (pol : Polarity) (ts : Tick) (s : State) :
    (¬ Accepted ts s.dec ∧ edge Config.dlrx pol ts s = divert Config.dlrx s) ∨
    (Accepted ts s.dec ∧ s.dec.dstate = .discoverClock ∧
      edge Config.dlrx pol ts s = noteTime ts (discoverEdge Config.dlrx ts s)) ∨
    (Accepted ts s.dec ∧ s.dec.dstate = .synchronizing ∧
      edge Config.dlrx pol ts s = noteTime ts (syncingEdge Config.dlrx ts pol s)) ∨
    (Accepted ts s.dec ∧ s.dec.dstate = .synchronized ∧
      edge Config.dlrx pol ts s =
        match (syncedEdge Config.dlrx ts pol s).2 with
        | none => noteTime ts (syncedEdge Config.dlrx ts pol s).1
        | some y => emit Config.dlrx y (noteTime ts (syncedEdge Config.dlrx ts pol s).1)) := by
  by_cases ha : Accepted ts s.dec
  · have hn := notIncreasing_eq_false.mpr ha
    have he : edge Config.dlrx pol ts s =
        match (decodeByState Config.dlrx pol ts s).2 with
        | none => noteTime ts (decodeByState Config.dlrx pol ts s).1
        | some y => emit Config.dlrx y (noteTime ts (decodeByState Config.dlrx pol ts s).1) := by
      simp only [edge, hn]
      rfl
    refine .inr ?_
    cases hd : s.dec.dstate with
    | discoverClock => exact .inl ⟨ha, rfl, by rw [he]; simp [decodeByState, hd]⟩
    | synchronizing => exact .inr (.inl ⟨ha, rfl, by rw [he]; simp [decodeByState, hd]⟩)
    | synchronized => exact .inr (.inr ⟨ha, rfl, by rw [he]; simp only [decodeByState, hd]⟩)
  · exact .inl ⟨ha, by simp [edge, notIncreasing_eq_true.mpr ha]⟩

end Sys2Proof.Machine
end

