-- ==== Sys2Proof/Laws/Calibration.lean ====
section
/-! SUPPORT. The estimates of a calibration as numbers (41_manchester_decoder.md R132, R133, R134). -/

namespace Sys2Proof.Machine

/-- A mean is no smaller than a lower bound of its members. -/
theorem le_mean {a : Nat} {l : List Nat} (hl : l ≠ []) (h : ∀ x ∈ l, a ≤ x) : a ≤ mean l := by
  rw [mean, Nat.le_div_iff_mul_le (List.length_pos_iff.mpr hl)]
  simpa [mul_comm] using List.card_nsmul_le_sum l a h

/-- A mean is no greater than an upper bound of its members. -/
theorem mean_le {b : Nat} {l : List Nat} (h : ∀ x ∈ l, x ≤ b) : mean l ≤ b := by
  refine Nat.div_le_of_le_mul ?_
  simpa using List.sum_le_card_nsmul l b h

/-- Sorting is determined by its result, so any sorted arrangement of the samples gives the trimmed list. -/
theorem trimmed_eq {l S : List Nat} (hp : S.Perm l) (hs : S.Pairwise (· ≤ ·)) :
    trimmed l = S.tail.dropLast := by
  have : l.insertionSort (· ≤ ·) = S :=
    ((List.perm_insertionSort _ l).trans hp.symm).eq_of_pairwise
      (fun a b _ _ h1 h2 => Nat.le_antisymm h1 h2)
      (List.pairwise_insertionSort _ l) hs
  simp [trimmed, this]

/-- Every trimmed value is a sample. -/
theorem mem_of_mem_trimmed {l : List Nat} {x : Nat} (h : x ∈ trimmed l) : x ∈ l := by
  have h1 := List.mem_of_mem_drop (List.dropLast_subset _ h)
  exact (List.perm_insertionSort _ l).mem_iff.mp h1

/-- Two values of the samples are trimmed away. -/
theorem trimmed_length (l : List Nat) : (trimmed l).length = l.length - 2 := by
  simp only [trimmed, List.length_dropLast, List.length_drop, List.length_insertionSort]
  omega

theorem trimmed_sorted (l : List Nat) : (trimmed l).Pairwise (· ≤ ·) :=
  ((List.pairwise_insertionSort _ l).sublist (List.drop_sublist 1 _)).sublist (List.dropLast_sublist _)

/-- The initial estimate of a sorted list is one of its values and no greater than any. -/
theorem initialEstimate_spec {r : List Nat} (hr : r ≠ []) (hs : r.Pairwise (· ≤ ·)) :
    initialEstimate r ∈ r ∧ ∀ x ∈ r, initialEstimate r ≤ x := by
  cases r with
  | nil => exact absurd rfl hr
  | cons a l =>
    refine ⟨by simp [initialEstimate], fun x hx => ?_⟩
    rcases List.mem_cons.mp hx with rfl | h
    · exact le_rfl
    · exact (List.pairwise_cons.mp hs).1 x h

/-- The half-bit class holds the initial estimate. -/
theorem initialEstimate_mem_halfClass {r : List Nat} (hr : r ≠ []) (hs : r.Pairwise (· ≤ ·)) :
    initialEstimate r ∈ halfClass Config.dlrx r := by
  rw [halfClass, List.mem_filter]
  refine ⟨(initialEstimate_spec hr hs).1, ?_⟩
  exact decide_eq_true (show 2 * initialEstimate r ≤ 3 * initialEstimate r by omega)

/-- With all 500 samples stored, no estimate wraps: each is its mean. -/
theorem calibrate_toNat (d : Decoder) (hd : d.samples.length = 500) :
    let r := trimmed (d.samples.map BitVec.toNat)
    (calibrate Config.dlrx d).halfT.toNat = mean (halfClass Config.dlrx r) ∧
    (calibrate Config.dlrx d).fullEst.toNat = mean (fullClass Config.dlrx r) ∧
    (calibrate Config.dlrx d).sens.toNat = 6 * mean (halfClass Config.dlrx r) / 10 := by
  intro r
  have ht : d.samples.take Config.dlrx.sampleN = d.samples := List.take_of_length_le (by rw [hd]; rfl)
  have hlt : ∀ x ∈ r, x ≤ 2 ^ 64 - 1 := by
    intro x hx
    obtain ⟨b, -, rfl⟩ := List.mem_map.mp (mem_of_mem_trimmed hx)
    have := Tick.toNat_lt b
    omega
  have h1 : mean (halfClass Config.dlrx r) ≤ 2 ^ 64 - 1 :=
    mean_le fun x hx => hlt x (List.mem_of_mem_filter hx)
  have h2 : mean (fullClass Config.dlrx r) ≤ 2 ^ 64 - 1 :=
    mean_le fun x hx => hlt x (List.mem_of_mem_filter hx)
  simp only [calibrate, ht, BitVec.toNat_ofNat]
  refine ⟨Nat.mod_eq_of_lt (lt_of_le_of_lt h1 (by norm_num)),
    Nat.mod_eq_of_lt (lt_of_le_of_lt h2 (by norm_num)), Nat.mod_eq_of_lt ?_⟩
  change 6 * mean (halfClass Config.dlrx r) / 10 < 2 ^ 64
  omega

/-- Positive samples give a positive half-bit estimate. -/
theorem calibrate_halfT_pos (d : Decoder) (hd : d.samples.length = 500)
    (h : ∀ x ∈ d.samples, 0 < x.toNat) : 0 < (calibrate Config.dlrx d).halfT.toNat := by
  rw [(calibrate_toNat d hd).1]
  have hr : trimmed (d.samples.map BitVec.toNat) ≠ [] := by
    intro he
    have := trimmed_length (d.samples.map BitVec.toNat)
    rw [he] at this
    simp [hd] at this
  refine le_mean (List.ne_nil_of_mem (initialEstimate_mem_halfClass hr (trimmed_sorted _))) fun x hx => ?_
  obtain ⟨b, hb, rfl⟩ := List.mem_map.mp (mem_of_mem_trimmed (List.mem_of_mem_filter hx))
  exact h b hb

end Sys2Proof.Machine
end

