-- ==== Sys2Proof/Laws/Decode.lean ====
section
/-! SUPPORT. The two decoders with their widths written out, and the fields of the words the encoder builds
(30_encoding.md R100, R105). -/

namespace Sys2Proof

/-- Decoding of an edge word, its 66 bits written out. -/
theorem decodeEdge_eq (w : BitVec 66) :
    decodeEdge w =
      if w.extractLsb' 64 2 = 0#2 then .fe (w.extractLsb' 0 64)
      else if w.extractLsb' 64 2 = 1#2 then .re (w.extractLsb' 0 64)
      else if w.extractLsb' 64 2 = 2#2 then .drop
      else .rsvdEdge := rfl

/-- Decoding of a host word, its 41 bits written out. -/
theorem decodeHost_eq (w : BitVec 41) :
    decodeHost w =
      if w.getLsbD 40 then
        if w.extractLsb' 34 6 = 1#6 then .wrCtrl (w.extractLsb' 0 3)
        else if w.extractLsb' 34 6 = 2#6 then (if w.getLsbD 0 then .wrCmdRestart else .wrCmdNop)
        else if w.extractLsb' 34 6 = 3#6 then .wrStatusAck (w.extractLsb' 8 5)
        else .wrOther (w.extractLsb' 34 6)
      else .rd (w.extractLsb' 34 6) := rfl

/-- Bit i of an edge word. -/
theorem getLsbD_edgeWord (k : BitVec 2) (ts : Tick) (i : Nat) :
    (k ++ ts : BitVec 66).getLsbD i = if i < 64 then ts.getLsbD i else k.getLsbD (i - 64) :=
  BitVec.getLsbD_append

/-- `EDGE_KIND` of an edge word. -/
theorem kind_of_edgeWord (k : BitVec 2) (ts : Tick) : (k ++ ts : BitVec 66).extractLsb' 64 2 = k := by
  ext i hi
  rw [BitVec.getElem_extractLsb', getLsbD_edgeWord]
  simp [BitVec.getLsbD_eq_getElem hi]

/-- `EDGE_TS` of an edge word. -/
theorem ts_of_edgeWord (k : BitVec 2) (ts : Tick) : (k ++ ts : BitVec 66).extractLsb' 0 64 = ts := by
  ext i hi
  rw [BitVec.getElem_extractLsb', getLsbD_edgeWord]
  simp [hi]

/-- Decoding of an edge word given as its kind and its time. -/
theorem decodeEdge_append (k : BitVec 2) (ts : Tick) :
    decodeEdge (k ++ ts) =
      if k = 0#2 then .fe ts else if k = 1#2 then .re ts else if k = 2#2 then .drop else .rsvdEdge := by
  rw [decodeEdge_eq, kind_of_edgeWord, ts_of_edgeWord]

/-- An edge word is its kind and its time. -/
theorem edgeWord_eq (w : BitVec 66) : w = w.extractLsb' 64 2 ++ w.extractLsb' 0 64 := by
  refine BitVec.eq_of_getLsbD_eq fun i hi => ?_
  rw [getLsbD_edgeWord]
  by_cases h : i < 64
  · simp [h]
  · have h2 : i - 64 < 2 := by omega
    simp [h, h2, show 64 + (i - 64) = i by omega]

/-- The word of `RD`. -/
theorem rdWord_fields : ∀ a : BitVec 6,
    (0#1 ++ a ++ 0#34 : BitVec 41).getLsbD 40 = false ∧
    (0#1 ++ a ++ 0#34 : BitVec 41).extractLsb' 34 6 = a := by decide

/-- The word of `WR.OTHER`. -/
theorem wrOtherWord_fields : ∀ a : BitVec 6,
    (1#1 ++ a ++ 0#34 : BitVec 41).getLsbD 40 = true ∧
    (1#1 ++ a ++ 0#34 : BitVec 41).extractLsb' 34 6 = a := by decide

/-- The word of `WR.CTRL`. -/
theorem wrCtrlWord_fields : ∀ d : BitVec 3,
    (1#1 ++ 1#6 ++ 0#31 ++ d : BitVec 41).getLsbD 40 = true ∧
    (1#1 ++ 1#6 ++ 0#31 ++ d : BitVec 41).extractLsb' 34 6 = 1 ∧
    (1#1 ++ 1#6 ++ 0#31 ++ d : BitVec 41).extractLsb' 0 3 = d := by decide

/-- The word of `WR.STATUS.ACK`. -/
theorem wrStatusAckWord_fields : ∀ e : BitVec 5,
    (1#1 ++ 3#6 ++ 0#21 ++ e ++ 0#8 : BitVec 41).getLsbD 40 = true ∧
    (1#1 ++ 3#6 ++ 0#21 ++ e ++ 0#8 : BitVec 41).extractLsb' 34 6 = 3 ∧
    (1#1 ++ 3#6 ++ 0#21 ++ e ++ 0#8 : BitVec 41).extractLsb' 8 5 = e := by decide

end Sys2Proof
end

