-- ==== Sys2Proof/Laws/Exec.lean ====
section
/-! SUPPORT. What `exec` is on each row, what the next state of a row can be, and what a step is by what is
found at the ports. -/

namespace Sys2Proof.Machine

@[simp] theorem exec_fe (ts : Tick) (s : State) :
    exec (.fe ts) s = .next (edge Config.dlrx .falling ts (beginEdge s)) := rfl
@[simp] theorem exec_re (ts : Tick) (s : State) :
    exec (.re ts) s = .next (edge Config.dlrx .rising ts (beginEdge s)) := rfl
@[simp] theorem exec_drop (s : State) : exec .drop s = .next (dropMarker Config.dlrx (beginEdge s)) := rfl
@[simp] theorem exec_rsvdEdge (s : State) : exec .rsvdEdge s = .next (divert Config.dlrx (beginEdge s)) := rfl
@[simp] theorem exec_symLow (s : State) : exec .symLow s = .next (framer Config.dlrx .low (quiet s)) := rfl
@[simp] theorem exec_symHigh (s : State) : exec .symHigh s = .next (framer Config.dlrx .high (quiet s)) := rfl
@[simp] theorem exec_symInvalid (s : State) :
    exec .symInvalid s = .next (framer Config.dlrx .invalid (quiet s)) := rfl
@[simp] theorem exec_symRsvd (s : State) : exec .symRsvd s = .refused .symCodeReserved := rfl
@[simp] theorem exec_rd (a : BitVec 6) (s : State) : exec (.rd a) s = .next (hostRead a s) := rfl
@[simp] theorem exec_wrCtrl (d : BitVec 3) (s : State) :
    exec (.wrCtrl d) s = .next (ctrlWrite d (beginHost s)) := rfl
@[simp] theorem exec_wrCmdRestart (s : State) : exec .wrCmdRestart s = .next (restart (beginHost s)) := rfl
@[simp] theorem exec_wrCmdNop (s : State) : exec .wrCmdNop s = .next (beginHost s) := rfl
@[simp] theorem exec_wrStatusAck (e : BitVec 5) (s : State) :
    exec (.wrStatusAck e) s = .next (statusWrite e (beginHost s)) := rfl
@[simp] theorem exec_wrOther (a : BitVec 6) (s : State) : exec (.wrOther a) s = .next (beginHost s) := rfl

/-- What the next state of a row is: an edge, a drop marker, a diverted input, a symbol, or a host access. -/
theorem exec_next_cases {i : Instr} {s t : State} (h : exec i s = .next t) :
    (∃ ts, i = .fe ts ∧ t = edge Config.dlrx .falling ts (beginEdge s)) ∨
    (∃ ts, i = .re ts ∧ t = edge Config.dlrx .rising ts (beginEdge s)) ∨
    (i = .drop ∧ t = dropMarker Config.dlrx (beginEdge s)) ∨
    (i = .rsvdEdge ∧ t = divert Config.dlrx (beginEdge s)) ∨
    (∃ y, (i = .symLow ∧ y = .low ∨ i = .symHigh ∧ y = .high ∨ i = .symInvalid ∧ y = .invalid) ∧
      t = framer Config.dlrx y (quiet s)) ∨
    (∃ a, i = .rd a ∧ t = hostRead a s) ∨
    (∃ d, i = .wrCtrl d ∧ t = ctrlWrite d (beginHost s)) ∨
    (i = .wrCmdRestart ∧ t = restart (beginHost s)) ∨
    (i = .wrCmdNop ∧ t = beginHost s) ∨
    (∃ e, i = .wrStatusAck e ∧ t = statusWrite e (beginHost s)) ∨
    (∃ a, i = .wrOther a ∧ t = beginHost s) := by
  cases i <;> simp_all

/-- Every row belongs to one port. -/
theorem port_cases (i : Instr) : i.port = .edge ∨ i.port = .sym ∨ i.port = .host := by
  cases i <;> simp [Instr.port]

/-- Every next state of a symbol row. -/
theorem exec_sym_next {i : Instr} {s t : State} (hp : i.port = .sym) (h : exec i s = .next t) :
    ∃ y, (i = .symLow ∧ y = .low ∨ i = .symHigh ∧ y = .high ∨ i = .symInvalid ∧ y = .invalid) ∧
      t = framer Config.dlrx y (quiet s) := by
  cases i <;> simp only [Instr.port, reduceCtorEq] at hp <;> simp_all

/-- Every next state of a host row. -/
theorem exec_host_next {i : Instr} {s t : State} (hp : i.port = .host) (h : exec i s = .next t) :
    (∃ o, t = { s with out := o }) ∨ (∃ d o, i = .wrCtrl d ∧ t = { s with ctrl := d, out := o }) ∨
    (∃ e, i = .wrStatusAck e ∧ t = statusWrite e (beginHost s)) ∨
    (i = .wrCmdRestart ∧ t = restart (beginHost s)) := by
  cases i <;> simp only [Instr.port, reduceCtorEq] at hp <;>
    simp only [exec_rd, exec_wrCtrl, exec_wrCmdRestart, exec_wrCmdNop, exec_wrStatusAck, exec_wrOther,
      Host.Outcome.next.injEq] at h <;> subst h
  · exact .inl ⟨_, rfl⟩
  · exact .inr (.inl ⟨_, _, rfl, rfl⟩)
  · simp
  · exact .inl ⟨_, rfl⟩
  · simp
  · exact .inl ⟨_, rfl⟩

/-- What a step's next state is: a state the ports settled to, or the next state of a row. -/
theorem step_next_cases {s t : State} (h : step s = .next t) :
    fetch s = .settled t ∨ ∃ w u, fetch s = .offered w u ∧ exec (decode w) u = .next t := by
  unfold step at h
  cases hf : fetch s with
  | settled v => rw [hf] at h; left; simpa using h
  | offered w u => rw [hf] at h; exact .inr ⟨w, u, rfl, h⟩

/-- One step of a run, over any machine, so that no rewrite has to see through `core`. -/
theorem run_succ_eq (M : Host.Core) (n : Nat) (s : M.State) :
    M.run (n + 1) s =
      match M.step s with
      | .next t => M.run n t
      | .fault r => .fault r
      | .refused r => .refused r := rfl

end Sys2Proof.Machine
end

