-- ==== Sys2Proof/Laws/Edge.lean ====
section
/-! SUPPORT. Everything an edge-port row can do, once: how it moves the decoder, what it emits, and what
else it writes (41_manchester_decoder.md). -/

namespace Sys2Proof.Machine

open Sys2Proof.Safety

/-- The moves of the decoder on an edge-port row `i`, with the symbol each emits. -/
inductive EdgeMove (i : Instr) (d : Decoder) : Option Symbol → Decoder → Prop where
  | first (ts : Tick) (hi : i = .fe ts ∨ i = .re ts) (ha : Accepted ts d) (hd : d.dstate = .discoverClock) :
      EdgeMove i d none { d with dcPrevValid := true, lastTs := ts, lastTsValid := true }
  | record (ts : Tick) (hi : i = .fe ts ∨ i = .re ts) (ha : Accepted ts d) (hd : d.dstate = .discoverClock)
      (hp : d.dcPrevValid = true) (hn : d.sampleCnt + 1 ≠ 500) :
      EdgeMove i d none
        { recordSample ts d with dcPrevValid := true, lastTs := ts, lastTsValid := true }
  | calibrated (ts : Tick) (hi : i = .fe ts ∨ i = .re ts) (ha : Accepted ts d)
      (hd : d.dstate = .discoverClock) (hp : d.dcPrevValid = true) (hn : d.sampleCnt + 1 = 500) :
      EdgeMove i d none
        { calibrate Config.dlrx (recordSample ts d) with
          dstate := .synchronizing, ref := refAt ts, refValid := true, dcPrevValid := true
          lastTs := ts, lastTsValid := true }
  | waits (ts : Tick) (hi : i = .fe ts ∨ i = .re ts) (ha : Accepted ts d) (hd : d.dstate = .synchronizing) :
      EdgeMove i d none
        { d with ref := refAt ts, refValid := true, lastTs := ts, lastTsValid := true }
  | synced (ts : Tick) (hi : i = .fe ts) (ha : Accepted ts d) (hd : d.dstate = .synchronizing)
      (hr : d.refValid = true) (hc : edgeClass ts d = 2) :
      EdgeMove i d none
        { d with
          dstate := .synchronized, last := 0, ref := refBefore ts d.halfT, lastTs := ts
          lastTsValid := true }
  | boundary (ts : Tick) (hi : i = .fe ts ∨ i = .re ts) (ha : Accepted ts d)
      (hd : d.dstate = .synchronized) :
      EdgeMove i d none { d with last := 2, ref := refAt ts, lastTs := ts, lastTsValid := true }
  | emitted (ts : Tick) (y : Symbol) (hy : y = .high ∧ i = .fe ts ∨ y = .low ∧ i = .re ts)
      (ha : Accepted ts d) (hd : d.dstate = .synchronized) :
      EdgeMove i d (some y)
        { d with
          last := BitVec.ofInt 2 (edgeClass ts d), ref := refBefore ts d.halfT, lastTs := ts
          lastTsValid := true }
  | violation (ts : Tick) (hi : i = .fe ts ∨ i = .re ts) (ha : Accepted ts d)
      (hd : d.dstate = .synchronized) :
      EdgeMove i d (some .invalid)
        { d with
          dstate := .synchronizing, ref := refAt ts, refValid := true, last := 0, lastTs := ts
          lastTsValid := true }
  | dropDiscovering (hd : d.dstate = .discoverClock) :
      EdgeMove i d none { d with dcPrevValid := false }
  | dropSynchronizing (hd : d.dstate = .synchronizing) :
      EdgeMove i d none { d with refValid := false }
  | dropSynchronized (hd : d.dstate = .synchronized) :
      EdgeMove i d (some .invalid) { d with dstate := .synchronizing, refValid := false, last := 0 }

/-- The state an edge-port row hands to the framer, or leaves: decoder `d`, symbol `y`, and whether it
counted a drop and set `INERR`. -/
def edgeLeaves (y : Option Symbol) (d : Decoder) (dropped inErr : Bool) (s : State) : State :=
  { s with
    dec := d
    out := edgeOutputs (y.map Symbol.code)
    cnt :=
      { s.cnt with
        drop := if dropped then s.cnt.drop + 1 else s.cnt.drop
        invalid := if y = some .invalid then s.cnt.invalid + 1 else s.cnt.invalid }
    flags :=
      { s.flags with
        inErr := inErr || s.flags.inErr
        errNew := if y = some .invalid then true else s.flags.errNew } }

/-- The framer's part of an edge-port row. -/
def framerPart : Option Symbol → State → State
  | none, s => s
  | some y, s => framer Config.dlrx y s

@[simp] theorem framerPart_dec (y : Option Symbol) (s : State) : (framerPart y s).dec = s.dec := by
  cases y <;> simp [framerPart]
@[simp] theorem framerPart_out (y : Option Symbol) (s : State) : (framerPart y s).out = s.out := by
  cases y <;> simp [framerPart]
@[simp] theorem framerPart_env (y : Option Symbol) (s : State) : (framerPart y s).env = s.env := by
  cases y <;> simp [framerPart]
@[simp] theorem framerPart_ctrl (y : Option Symbol) (s : State) : (framerPart y s).ctrl = s.ctrl := by
  cases y <;> simp [framerPart]

/-- A drop marker, diverted or not. -/
theorem dropMarker_move (i : Instr) (e : Bool) (s : State) :
    ∃ y d, EdgeMove i s.dec y d ∧
      (if e then divert Config.dlrx (beginEdge s) else dropMarker Config.dlrx (beginEdge s)) =
        framerPart y (edgeLeaves y d true e s) := by
  cases hd : s.dec.dstate with
  | discoverClock =>
    refine ⟨none, _, .dropDiscovering hd, ?_⟩
    cases e <;> simp [divert_eq, dropMarker_eq, hd, framerPart, edgeLeaves]
  | synchronizing =>
    refine ⟨none, _, .dropSynchronizing hd, ?_⟩
    cases e <;> simp [divert_eq, dropMarker_eq, hd, framerPart, edgeLeaves]
  | synchronized =>
    refine ⟨some .invalid, _, .dropSynchronized hd, ?_⟩
    cases e
    · simp [dropMarker_eq, hd, framerPart, edgeLeaves]; rfl
    · simp [divert_eq, dropMarker_eq, hd, framerPart, edgeLeaves, framer_invalid]
      rfl

/-- An edge, diverted or accepted. -/
theorem edge_move (pol : Polarity) (ts : Tick) (s : State) (i : Instr)
    (hi : pol = .falling ∧ i = .fe ts ∨ pol = .rising ∧ i = .re ts) :
    ∃ y d b e, EdgeMove i s.dec y d ∧
      edge Config.dlrx pol ts (beginEdge s) = framerPart y (edgeLeaves y d b e s) := by
  have hi' : i = .fe ts ∨ i = .re ts := hi.imp And.right And.right
  rcases edge_cases pol ts (beginEdge s) with ⟨-, e⟩ | ⟨ha, hd, e⟩ | ⟨ha, hd, e⟩ | ⟨ha, hd, e⟩
  · obtain ⟨y, d, hm, he⟩ := dropMarker_move i true s
    exact ⟨y, d, true, true, hm, by rw [e]; simpa using he⟩
  · have ha : Accepted ts s.dec := ha
    have hd : s.dec.dstate = .discoverClock := hd
    rcases discoverEdge_cases ts (beginEdge s) with ⟨-, h⟩ | ⟨hp, hn, h⟩ | ⟨hp, hn, h⟩
    · exact ⟨none, _, false, false, .first ts hi' ha hd, by rw [e, h]; rfl⟩
    · exact ⟨none, _, false, false, .record ts hi' ha hd hp hn, by rw [e, h]; rfl⟩
    · exact ⟨none, _, false, false, .calibrated ts hi' ha hd hp hn, by rw [e, h]; rfl⟩
  · have ha : Accepted ts s.dec := ha
    have hd : s.dec.dstate = .synchronizing := hd
    rcases syncingEdge_cases ts pol (beginEdge s) with ⟨hr, hc, hp, h⟩ | ⟨-, h⟩
    · subst hp
      have hi2 : i = .fe ts := by simpa using hi
      exact ⟨none, _, false, false, .synced ts hi2 ha hd hr hc, by rw [e, h]; rfl⟩
    · exact ⟨none, _, false, false, .waits ts hi' ha hd, by rw [e, h]; rfl⟩
  · have ha : Accepted ts s.dec := ha
    have hd : s.dec.dstate = .synchronized := hd
    rcases syncedEdge_cases ts pol (beginEdge s) with ⟨-, -, h⟩ | ⟨-, h⟩ | ⟨-, h⟩
    · exact ⟨none, _, false, false, .boundary ts hi' ha hd, by rw [e, h]; rfl⟩
    · refine ⟨some pol.symbol, _, false, false, .emitted ts pol.symbol ?_ ha hd, ?_⟩
      · rcases hi with ⟨rfl, hi⟩ | ⟨rfl, hi⟩
        · exact .inl ⟨rfl, hi⟩
        · exact .inr ⟨rfl, hi⟩
      · rw [e, h]; cases pol <;> rfl
    · exact ⟨some .invalid, _, false, false, .violation ts hi' ha hd, by rw [e, h]; rfl⟩

/-- Every next state of an edge-port row. -/
theorem exec_edge_next {i : Instr} {s t : State} (hp : i.port = .edge) (h : exec i s = .next t) :
    ∃ y d b e, EdgeMove i s.dec y d ∧ t = framerPart y (edgeLeaves y d b e s) := by
  cases i <;> simp only [Instr.port, reduceCtorEq] at hp
  · obtain ⟨y, d, b, e, hm, he⟩ := edge_move .falling _ s _ (.inl ⟨rfl, rfl⟩)
    exact ⟨y, d, b, e, hm, by rw [← he]; simpa using h.symm⟩
  · obtain ⟨y, d, b, e, hm, he⟩ := edge_move .rising _ s _ (.inr ⟨rfl, rfl⟩)
    exact ⟨y, d, b, e, hm, by rw [← he]; simpa using h.symm⟩
  · obtain ⟨y, d, hm, he⟩ := dropMarker_move .drop false s
    exact ⟨y, d, true, false, hm, by rw [← he]; simpa using h.symm⟩
  · obtain ⟨y, d, hm, he⟩ := dropMarker_move .rsvdEdge true s
    exact ⟨y, d, true, true, hm, by rw [← he]; simpa using h.symm⟩

end Sys2Proof.Machine
end

