-- ==== Sys2Proof/Laws/Stream.lean ====
section
/-! SUPPORT. Streams of symbols through the framer: the silent runs, and what a completion then yields
(42_dlbus_framer.md R171 to R177). -/

namespace Sys2Proof.Machine

open Sys2Proof.Safety

/-- On these symbols only the framer's own state moves, to `f`, and no frame completes. -/
def Silently (ys : List Symbol) (s : State) (f : Framer) : Prop :=
  runFramer ys s = { s with frm := f } ∧
    ∀ zs, framesOf (ys ++ zs) s = framesOf zs { s with frm := f }

theorem silently_nil (s : State) : Silently [] s s.frm := ⟨rfl, fun _ => rfl⟩

/-- One symbol that moves framer state alone, then a silent run. -/
theorem silently_cons {y : Symbol} {ys : List Symbol} {s : State} {f g : Framer}
    (h : framer Config.dlrx y s = { s with frm := f }) (hr : Silently ys { s with frm := f } g) :
    Silently (y :: ys) s g := by
  refine ⟨?_, fun zs => ?_⟩
  · have : runFramer (y :: ys) s = runFramer ys (framer Config.dlrx y s) := rfl
    rw [this, h, hr.1]
  · rw [List.cons_append, framesOf, h]
    simpa using hr.2 zs

theorem silently_append {xs ys : List Symbol} {s : State} {f g : Framer} (h : Silently xs s f)
    (hr : Silently ys { s with frm := f } g) : Silently (xs ++ ys) s g := by
  refine ⟨?_, fun zs => ?_⟩
  · have : runFramer (xs ++ ys) s = runFramer ys (runFramer xs s) := by simp [runFramer]
    rw [this, h.1, hr.1]
  · rw [List.append_assoc, h.2, hr.2]

/-- `High` symbols of a gap: each counts, up to 255. -/
theorem silently_gap (n : Nat) {s : State} (h : s.frm.fstate = .awaitingSync) :
    ∃ c : BitVec 8, c.toNat = min (s.frm.syncCnt.toNat + n) 255 ∧
      Silently (List.replicate n .high) s { s.frm with syncCnt := c } := by
  induction n generalizing s with
  | zero => exact ⟨s.frm.syncCnt, by have := s.frm.syncCnt.isLt; omega, silently_nil s⟩
  | succ n ih =>
    obtain ⟨c, hc, hr⟩ := ih (s := { s with frm := { s.frm with syncCnt := satSucc s.frm.syncCnt } }) h
    refine ⟨c, ?_, ?_⟩
    · rw [hc]
      simp only [satSucc_toNat]
      omega
    · rw [List.replicate_succ]
      exact silently_cons (by simp [framer, h, awaitSync]) hr

/-- A data bit at index k + 1. -/
theorem framer_dataBit {s : State} (b : Bool) (k : Nat) (hk8 : k < 8)
    (h : s.frm.fstate = .receiving) (hk : s.frm.bitIndex.val = k + 1) :
    framer Config.dlrx (bitSymbol b) s =
      { s with frm :=
        { s.frm with
          shift := s.frm.shift ||| (BitVec.ofBool b).setWidth 8 <<< k
          bitIndex := ⟨k + 2, Nat.add_lt_add_right hk8 2⟩ } } := by
  have hk1 : s.frm.bitIndex = ⟨k + 1, Nat.add_lt_add hk8 (by decide)⟩ := Fin.ext hk
  have n0 : s.frm.bitIndex ≠ 0 := fun e => by
    have : k + 1 = 0 := hk.symm.trans (congrArg Fin.val e)
    omega
  have hs : s.frm.bitIndex + 1 = ⟨k + 2, Nat.add_lt_add_right hk8 2⟩ := by
    rw [hk1]; apply Fin.ext; rw [Fin.val_add]; show (k + 1 + 1) % 10 = k + 2
    omega
  cases b <;> simp [framer, h, n0, hk8.ne, dataBit, hs, hk, bitSymbol]

/-- Eight data bits put together. -/
theorem shift_of_bits : ∀ v : Byte,
    ((((((((0#8 ||| (BitVec.ofBool (v.getLsbD 0)).setWidth 8 <<< 0)
      ||| (BitVec.ofBool (v.getLsbD 1)).setWidth 8 <<< 1)
      ||| (BitVec.ofBool (v.getLsbD 2)).setWidth 8 <<< 2)
      ||| (BitVec.ofBool (v.getLsbD 3)).setWidth 8 <<< 3)
      ||| (BitVec.ofBool (v.getLsbD 4)).setWidth 8 <<< 4)
      ||| (BitVec.ofBool (v.getLsbD 5)).setWidth 8 <<< 5)
      ||| (BitVec.ofBool (v.getLsbD 6)).setWidth 8 <<< 6)
      ||| (BitVec.ofBool (v.getLsbD 7)).setWidth 8 <<< 7) = v := by decide

/-- The framer with one more byte received. -/
def Framer.withByte (v : Byte) (f : Framer) : Framer :=
  { f with
    shift := v
    buf := if f.bufLen.toNat < 16 then f.buf.set f.bufLen.toNat v else f.buf
    bufLen := satSucc f.bufLen
    bitIndex := 0 }

/-- A `High` stop bit. -/
theorem framer_stopBit {s : State} (h : s.frm.fstate = .receiving) (h9 : s.frm.bitIndex = 9) :
    framer Config.dlrx .high s = { s with frm := s.frm.withByte s.frm.shift } := by
  simp [framer, h, h9, stopBit, Framer.withByte]

/-- The rest of a byte record after its start bit. -/
theorem silently_body {s : State} (v : Byte) (h : s.frm.fstate = .receiving)
    (h1 : s.frm.bitIndex = 1) (h0 : s.frm.shift = 0#8) :
    Silently (byteSymbols v).tail s (s.frm.withByte v) := by
  refine silently_cons (framer_dataBit _ 0 (by decide) h (by rw [h1]; rfl)) ?_
  refine silently_cons (framer_dataBit _ 1 (by decide) (by exact h) rfl) ?_
  refine silently_cons (framer_dataBit _ 2 (by decide) (by exact h) rfl) ?_
  refine silently_cons (framer_dataBit _ 3 (by decide) (by exact h) rfl) ?_
  refine silently_cons (framer_dataBit _ 4 (by decide) (by exact h) rfl) ?_
  refine silently_cons (framer_dataBit _ 5 (by decide) (by exact h) rfl) ?_
  refine silently_cons (framer_dataBit _ 6 (by decide) (by exact h) rfl) ?_
  refine silently_cons (framer_dataBit _ 7 (by decide) (by exact h) rfl) ?_
  refine silently_cons (f := s.frm.withByte v) ?_ (silently_nil _)
  refine (framer_stopBit (by exact h) rfl).trans ?_
  simp only [Framer.withByte, h0]
  rw [shift_of_bits v]

/-- What byte records leave in the framer: the count, and the first 16 bytes in place. -/
structure Received (bytes : List Byte) (f g : Framer) : Prop where
  receiving : g.fstate = .receiving
  at_boundary : g.bitIndex = 0
  sync : g.syncCnt = f.syncCnt
  len : g.bufLen.toNat = min (f.bufLen.toNat + bytes.length) 255
  buf_len : g.buf.length = 16
  byte : ∀ j, j < 16 → g.buf.getD j 0#8 =
    if f.bufLen.toNat ≤ j ∧ j < f.bufLen.toNat + bytes.length then bytes.getD (j - f.bufLen.toNat) 0#8
    else f.buf.getD j 0#8

theorem received_cons {v : Byte} {bytes : List Byte} {f g : Framer} (hb : f.buf.length = 16)
    (h : Received bytes (f.withByte v) g) : Received (v :: bytes) f g := by
  have hl : (f.withByte v).bufLen.toNat = min (f.bufLen.toNat + 1) 255 := satSucc_toNat _
  have hbl := f.bufLen.isLt
  refine ⟨h.receiving, h.at_boundary, h.sync, ?_, h.buf_len, fun j hj => ?_⟩
  · rw [h.len, hl, List.length_cons]; omega
  · rw [h.byte j hj, hl, List.length_cons]
    have hw : (f.withByte v).buf.getD j 0#8 = if j = f.bufLen.toNat then v else f.buf.getD j 0#8 := by
      have : (f.withByte v).buf =
        if f.bufLen.toNat < 16 then f.buf.set f.bufLen.toNat v else f.buf := rfl
      rw [this]
      by_cases h16 : f.bufLen.toNat < 16
      · by_cases hjl : j = f.bufLen.toNat
        · subst hjl
          simp [h16, List.getD_eq_getElem?_getD, hb]
        · simp [h16, List.getD_eq_getElem?_getD, List.getElem?_set_ne (Ne.symm hjl), hjl]
      · rw [if_neg h16, if_neg (by omega)]
    by_cases h1 : j = f.bufLen.toNat
    · rw [if_neg (by omega), hw, if_pos h1, if_pos (by omega), h1]; simp
    · by_cases h2 : f.bufLen.toNat < j ∧ j < f.bufLen.toNat + (bytes.length + 1)
      · rw [if_pos (by omega), if_pos (by omega), show min (f.bufLen.toNat + 1) 255 = f.bufLen.toNat + 1 by omega,
          show j - f.bufLen.toNat = (j - (f.bufLen.toNat + 1)) + 1 by omega, List.getD_cons_succ]
      · rw [if_neg (by omega), if_neg (by omega), hw, if_neg h1]

/-- Byte records in `Receiving`. -/
theorem silently_records (bytes : List Byte) {s : State} (h : s.frm.fstate = .receiving)
    (h0 : s.frm.bitIndex = 0) (hb : s.frm.buf.length = 16) :
    ∃ g, Silently (bytes.flatMap byteSymbols) s g ∧ Received bytes s.frm g := by
  induction bytes generalizing s with
  | nil =>
    exact ⟨s.frm, silently_nil s, h, h0, rfl, by have := s.frm.bufLen.isLt; simp; omega, hb,
      fun j _ => by simp⟩
  | cons v bytes ih =>
    have h1 : framer Config.dlrx .low s = { s with frm := { s.frm with shift := 0, bitIndex := 1 } } := by
      simp [framer, h, h0, startBit]
    have h2 := silently_body (s := { s with frm := { s.frm with shift := 0, bitIndex := 1 } }) v h rfl rfl
    have h3 : Silently (byteSymbols v) s (s.frm.withByte v) := silently_cons h1 h2
    obtain ⟨g, hg, hr⟩ := ih (s := { s with frm := s.frm.withByte v }) h rfl
      (by simp only [Framer.withByte]; split_ifs <;> simp [hb])
    exact ⟨g, silently_append h3 hg, received_cons hb hr⟩

/-- A frame's byte records after enough `High`. -/
theorem silently_frame (bytes : List Byte) {s : State} (h : s.frm.fstate = .awaitingSync)
    (hc : 16 ≤ s.frm.syncCnt.toNat) (hb : s.frm.buf.length = 16) (hne : bytes ≠ []) :
    ∃ g, Silently (bytes.flatMap byteSymbols) s g ∧
      Received bytes
        { s.frm with fstate := .receiving, bufLen := 0, shift := 0, bitIndex := 1, syncCnt := 0 } g := by
  cases bytes with
  | nil => exact absurd rfl hne
  | cons v bytes =>
    let f : Framer :=
      { s.frm with fstate := .receiving, bufLen := 0, shift := 0, bitIndex := 1, syncCnt := 0 }
    have h1 : framer Config.dlrx .low s = { s with frm := f } := by
      have : Config.dlrx.syncLen ≤ s.frm.syncCnt.toNat := hc
      simp only [framer, h, awaitSync, this, if_true, f]
    have h2 := silently_body (s := { s with frm := f }) v rfl rfl rfl
    have h3 : Silently (byteSymbols v) s (f.withByte v) := silently_cons h1 h2
    obtain ⟨g, hg, hr⟩ := silently_records bytes (s := { s with frm := f.withByte v }) rfl rfl
      (by simp [Framer.withByte, f, hb])
    exact ⟨g, silently_append h3 hg, received_cons (f := f) hb hr⟩

/-- A frame that waits to be completed, after a gap. -/
theorem silently_gap_frame (n : Nat) (bytes : List Byte) {s : State} (h : s.frm.fstate = .awaitingSync)
    (hb : s.frm.buf.length = 16) (hn : 16 ≤ s.frm.syncCnt.toNat + n) (hne : bytes ≠ []) :
    ∃ g, Silently (List.replicate n .high ++ bytes.flatMap byteSymbols) s g ∧
      g.fstate = .receiving ∧ g.bitIndex = 0 ∧ g.bufLen.toNat = min bytes.length 255 ∧
      g.buf.length = 16 ∧ ∀ j, j < 16 → j < bytes.length → g.buf.getD j 0#8 = bytes.getD j 0#8 := by
  obtain ⟨c, hc, hg⟩ := silently_gap n h
  obtain ⟨g, hg', hr⟩ := silently_frame bytes (s := { s with frm := { s.frm with syncCnt := c } }) h
    (by show 16 ≤ c.toNat; omega) hb hne
  refine ⟨g, silently_append hg hg', hr.receiving, hr.at_boundary, by simpa using hr.len, hr.buf_len, ?_⟩
  intro j hj hl
  have := hr.byte j hj
  simpa [hl] using this

/-- `High` where a start bit belongs. -/
theorem framer_completes {s : State} (h : s.frm.fstate = .receiving) (h0 : s.frm.bitIndex = 0) :
    framer Config.dlrx .high s = complete Config.dlrx s := by
  simp [framer, h, h0]

/-- The frame a completion yields. -/
theorem framesOf_completes {s : State} (ys : List Symbol) (h : s.frm.fstate = .receiving)
    (h0 : s.frm.bitIndex = 0) (f : List Byte) (hl : s.frm.bufLen.toNat = f.length) (h16 : f.length ≤ 16)
    (hb : ∀ j, j < f.length → s.frm.buf.getD j 0#8 = f.getD j 0#8) :
    framesOf (.high :: ys) s = f :: framesOf ys (complete Config.dlrx s) := by
  rw [framesOf, framer_completes h h0]
  have hs : (complete Config.dlrx s).rawSlot = completedSlot Config.dlrx s.frm s.rawSlot := by
    rw [complete_eq]; simp
  have hne : (complete Config.dlrx s).rawSlot.rawSeq ≠ s.rawSlot.rawSeq := by
    rw [hs]; simp [completedSlot]
  rw [if_neg hne, hs]
  congr 1
  apply List.ext_getElem
  · simp [completedSlot_length]; simp [completedSlot, hl, h16]
  · intro j h1 h2
    have := completedSlot_getD s.frm s.rawSlot j
    rw [if_pos (by omega), hb j h2] at this
    simp only [List.getD_eq_getElem?_getD] at this
    simp only [List.getElem_take]
    rw [List.getElem?_eq_getElem (by simp; omega), List.getElem?_eq_getElem h2] at this
    simpa using this

/-- The framer neither reads the decoder nor the outputs. -/
theorem framer_with (y : Symbol) (s : State) (d : Decoder) (o : Outputs) :
    framer Config.dlrx y { s with dec := d, out := o } =
      { framer Config.dlrx y s with dec := d, out := o } := by
  have hp : ∀ u : State, parse Config.dlrx { u with dec := d, out := o } =
      { parse Config.dlrx u with dec := d, out := o } := by
    intro u
    by_cases h : parseCode Config.dlrx u.rawSlot = .ok
    · rw [parse_of_ok h, parse_of_ok (s := { u with dec := d, out := o }) h]; rfl
    · rw [parse_of_not_ok h, parse_of_not_ok (s := { u with dec := d, out := o }) h]
  cases hf : s.frm.fstate with
  | awaitingSync => cases y <;> simp [framer, hf, awaitSync]; split_ifs <;> rfl
  | receiving =>
    cases y with
    | invalid => simp only [framer, hf]; rfl
    | low => simp only [framer, hf]; split_ifs <;> rfl
    | high =>
      simp only [framer, hf]; split_ifs
      · rw [complete_eq, complete_eq]
        have := hp
          { s with
            rawSlot := completedSlot Config.dlrx s.frm s.rawSlot
            flags := { s.flags with rawOverrun := s.flags.rawOverrun || s.flags.rawReady, rawReady := true }
            cnt := { s.cnt with frames := s.cnt.frames + 1 } }
        simp only [this]
      · rfl
      · rfl

/-- A stream through the framer neither reads the decoder nor the outputs. -/
theorem runFramer_with (ys : List Symbol) : ∀ (s : State) (d : Decoder) (o : Outputs),
    runFramer ys { s with dec := d, out := o } = { runFramer ys s with dec := d, out := o } := by
  induction ys with
  | nil => intro s d o; rfl
  | cons y ys ih =>
    intro s d o
    change runFramer ys (framer Config.dlrx y { s with dec := d, out := o }) = _
    rw [framer_with, ih]
    rfl

end Sys2Proof.Machine
end

