-- ==== Sys2Proof/Laws/Invariants.lean ====
section
/-! SUPPORT. What each operation does to the invariants of 70_reset_and_hazards.md R307: reset has them, a
symbol keeps the framer's, a decoder move keeps the decoder's. -/

namespace Sys2Proof.Machine

open Sys2Proof.Safety

theorem getD_replicate_zero (n : Nat) (j : Nat) : (List.replicate n 0#8).getD j 0#8 = 0#8 := by
  by_cases h : j < n <;> simp [List.getD_eq_getElem?_getD, h]

theorem reset_decoderInv : DecoderInv State.reset.dec where
  samples_len := List.length_replicate
  count_le := by decide
  discovering := by decide
  samples_pos := fun j h => absurd h (Nat.not_lt_zero j)
  prev_valid := by decide
  calibrated := by decide
  sens_rule := by decide
  ref_past := by decide
  synced_ref := by decide
  last_zero := by decide

theorem reset_framerInv : FramerInv State.reset where
  buf_len := rfl
  raw_len := rfl
  raw_tail := fun j _ => getD_replicate_zero 16 j
  awaiting_clean := by decide
  frame_has_bytes := by decide
  counters := ⟨rfl, rfl, rfl, by decide, by decide, by decide⟩

/-- The framer's invariant reads the framer, the slots and five counters only. -/
theorem framerInv_congr {s t : State} (hf : t.frm = s.frm) (hr : t.rawSlot = s.rawSlot)
    (hn : t.snap = s.snap) (he : t.res = s.res)
    (g1 : t.cnt.frames = s.cnt.frames) (g2 : t.cnt.ok = s.cnt.ok) (g3 : t.cnt.size = s.cnt.size)
    (g4 : t.cnt.device = s.cnt.device) (g5 : t.cnt.temp = s.cnt.temp)
    (h : FramerInv s) : FramerInv t := by
  obtain ⟨h1, h2, h3, h4, h5, ⟨c1, c2, c3, c4, c5, c6⟩⟩ := h
  refine ⟨hf ▸ h1, hr ▸ h2, hr ▸ h3, hf ▸ h4, hf ▸ h5, ?_⟩
  constructor <;> simp only [hr, hn, he, g1, g2, g3, g4, g5] <;> assumption

/-- One symbol keeps the counter equalities. -/
theorem framer_countersAgree (y : Symbol) {s : State} (h : CountersAgree s) :
    CountersAgree (framer Config.dlrx y s) := by
  obtain ⟨c1, c2, c3, c4, c5, c6⟩ := h
  rcases framer_outcome y s with ⟨h1, -, h3, h4, h5⟩ | ⟨h1, -, h3, h4, h5⟩ | ⟨h1, h2, h3⟩
  · constructor <;> simp only [h1, h3, h4, h5] <;> assumption
  · constructor <;> simp only [h1, h3, h4, h5] <;> assumption
  · rcases h3 with ⟨h3, h4, h5, -, h6⟩ | ⟨-, h3, h4, -, h6⟩
    · constructor <;> simp only [h1, h2, h3, h4, h5, h6, completedSlot]
      · rw [c1]
      · rw [c2]
      · rw [c3]
      · rw [c4]; ring
      · simp
      · simp
    · have hn : (framer Config.dlrx y s).res.code = .none → False := h3
      rcases h6 with h6 | h6 | h6 <;> constructor <;>
        simp only [h1, h2, h4, h6, completedSlot] <;>
        first
          | (intro h; exact absurd h hn)
          | assumption
          | rw [c1]
          | rw [c2]
          | (rw [c4]; ring)

/-- One symbol keeps the framer's invariant. -/
theorem framer_keeps (y : Symbol) {s : State} (h : FramerInv s) : FramerInv (framer Config.dlrx y s) := by
  obtain ⟨h1, h2, h3, h4, h5, h6⟩ := h
  have hc := framer_countersAgree y h6
  cases hf : s.frm.fstate with
  | awaitingSync =>
    obtain ⟨i0, l0⟩ := h4 hf
    cases y <;> simp only [framer, hf, awaitSync] at hc ⊢ <;> (try split_ifs at hc ⊢) <;>
      exact ⟨h1, h2, h3, by simp_all, by simp_all, hc⟩
  | receiving =>
    have fin : s.frm.bitIndex ≠ 9 → s.frm.bitIndex + 1 ≠ 0 := by
      generalize s.frm.bitIndex = b; revert b; decide
    have setl : ∀ (n : Nat) (v : Byte),
        (if n < 16 then s.frm.buf.set n v else s.frm.buf).length = 16 := by
      intro n v; split_ifs <;> simp [h1]
    cases y with
    | invalid =>
      simp only [framer, hf] at hc ⊢
      exact ⟨h1, h2, h3, by simp [discard], by simp [discard], hc⟩
    | low =>
      simp only [framer, hf] at hc ⊢
      split_ifs at hc ⊢ with b0 b9
      · exact ⟨h1, h2, h3, by simp [startBit, hf], by simp [startBit], hc⟩
      · exact ⟨h1, h2, h3, by simp [framingError_eq], by simp [framingError_eq], hc⟩
      · exact ⟨h1, h2, h3, by simp [dataBit, hf], by simp [dataBit, fin (fun e => b9 (congrArg Fin.val e))], hc⟩
    | high =>
      simp only [framer, hf] at hc ⊢
      split_ifs at hc ⊢ with b0 b9
      · refine ⟨by simpa [complete_eq] using h1, by simp [complete_eq], ?_, by simp [complete_eq],
          by simp [complete_eq], hc⟩
        intro j hj
        rw [complete_eq] at hj ⊢
        simp only [parse_rawSlot] at hj ⊢
        rw [completedSlot_getD, if_neg]
        exact fun hh => absurd hj (Nat.not_le.mpr hh.1)
      · exact ⟨setl _ _, h2, h3, by simp [stopBit, hf], fun _ _ => satSucc_ne_zero _, hc⟩
      · exact ⟨h1, h2, h3, by simp [dataBit, hf], by simp [dataBit, fin (fun e => b9 (congrArg Fin.val e))], hc⟩

/-- Recording a sample keeps every stored sample positive. -/
theorem recordSample_pos {ts : Tick} {d : Decoder} (h : DecoderInv d) (ha : Accepted ts d)
    (hp : d.dcPrevValid = true) (hc : d.sampleCnt.toNat < 500) :
    (recordSample ts d).samples.length = 500 ∧
    (recordSample ts d).sampleCnt.toNat = d.sampleCnt.toNat + 1 ∧
    ∀ j, j < d.sampleCnt.toNat + 1 → 0 < ((recordSample ts d).samples.getD j 0#64).toNat := by
  have hlt := ha (h.prev_valid hp)
  refine ⟨by simp [recordSample, h.samples_len], ?_, fun j hj => ?_⟩
  · simp only [recordSample, BitVec.toNat_add]
    change (d.sampleCnt.toNat + 1) % 65536 = _
    omega
  · by_cases he : j = d.sampleCnt.toNat
    · subst he
      simp only [recordSample, List.getD_eq_getElem?_getD]
      rw [List.getElem?_set_self (by rw [h.samples_len]; exact hc)]
      rw [Option.getD_some, Tick.toNat_sub_of_lt hlt]
      omega
    · have := h.samples_pos j (by omega)
      simpa only [recordSample, List.getD_eq_getElem?_getD, List.getElem?_set_ne (Ne.symm he)] using this

/-- Every decoder move keeps the decoder's invariant. -/
theorem edgeMove_keeps {i : Instr} {d d' : Decoder} {y : Option Symbol} (hm : EdgeMove i d y d')
    (h : DecoderInv d) : DecoderInv d' := by
  have hbefore : ∀ ts : Tick, (refBefore ts d.halfT).toInt ≤ ts.toNat := by
    intro ts; rw [refBefore_toInt]; omega
  have hat : ∀ ts : Tick, (refAt ts).toInt ≤ ts.toNat := fun ts => (refAt_toInt ts).le
  have h' := h
  obtain ⟨h1, h2, h3, h4, h5, h6, h7, h8, h9, h10⟩ := h
  cases hm with
  | first ts hi ha hd =>
    exact ⟨h1, h2, h3, h4, by simp, h6, h7, by simp [hd], by simp [hd], h10⟩
  | record ts hi ha hd hp hn =>
    obtain ⟨r1, r2, r3⟩ := recordSample_pos h' ha hp (h3.mp hd)
    have hlt := h3.mp hd
    have hne : d.sampleCnt.toNat + 1 ≠ 500 := fun e => hn (BitVec.eq_of_toNat_eq (by rw [← r2] at e; exact e))
    have hd2 : (recordSample ts d).dstate = .discoverClock := hd
    refine ⟨r1, by simp only [r2]; omega, ?_, by simpa only [r2] using r3, by simp, ?_, h7, ?_, ?_, h10⟩
    · simp only [r2, hd2, true_iff]; omega
    · simp [hd2]
    · simp [hd2]
    · simp [hd2]
  | calibrated ts hi ha hd hp hn =>
    obtain ⟨r1, r2, r3⟩ := recordSample_pos h' ha hp (h3.mp hd)
    have hc : (recordSample ts d).sampleCnt.toNat = 500 := congrArg BitVec.toNat hn
    have hpos : ∀ x ∈ (recordSample ts d).samples, 0 < x.toNat := by
      intro x hx
      obtain ⟨j, hj, rfl⟩ := List.getElem_of_mem hx
      have := r3 j (by omega)
      simpa [List.getD_eq_getElem?_getD, hj] using this
    have hh := calibrate_halfT_pos _ r1 hpos
    obtain ⟨c1, -, c3⟩ := calibrate_toNat _ r1
    have hs : (calibrate Config.dlrx (recordSample ts d)).sens.toNat =
        6 * (calibrate Config.dlrx (recordSample ts d)).halfT.toNat / 10 := by rw [c1, c3]
    have hcc : (calibrate Config.dlrx (recordSample ts d)).sampleCnt.toNat = 500 := hc
    have hl : (calibrate Config.dlrx (recordSample ts d)).last = 0 := h10 (by simp [hd])
    refine ⟨r1, hcc.le, ?_, ?_, by simp, fun _ => ⟨rfl, hh⟩, hs, fun _ _ => ⟨rfl, hat ts⟩, by simp,
      fun _ => hl⟩
    · simp only [hcc, reduceCtorEq, false_iff]; omega
    · intro j hj
      exact r3 j (by simp only [hcc] at hj; omega)
  | waits ts hi ha hd =>
    exact ⟨h1, h2, h3, h4, by simp, h6, h7, fun _ _ => ⟨rfl, hat ts⟩, by simp, h10⟩
  | synced ts hi ha hd hr hc =>
    have hn : ¬ d.sampleCnt.toNat < 500 := by rw [← h3, hd]; simp
    refine ⟨h1, h2, by simpa using hn, h4, by simp, fun _ => h6 (by simp [hd]), h7,
      fun _ _ => ⟨rfl, hbefore ts⟩, fun _ => hr, by simp⟩
  | boundary ts hi ha hd =>
    exact ⟨h1, h2, h3, h4, by simp, h6, h7, fun _ _ => ⟨rfl, hat ts⟩, h9, by simp [hd]⟩
  | emitted ts y hy ha hd =>
    exact ⟨h1, h2, h3, h4, by simp, h6, h7, fun _ _ => ⟨rfl, hbefore ts⟩, h9, by simp [hd]⟩
  | violation ts hi ha hd =>
    have hn : ¬ d.sampleCnt.toNat < 500 := by rw [← h3, hd]; simp
    exact ⟨h1, h2, by simpa using hn, h4, by simp, fun _ => h6 (by simp [hd]), h7,
      fun _ _ => ⟨rfl, hat ts⟩, by simp, fun _ => rfl⟩
  | dropDiscovering hd =>
    exact ⟨h1, h2, h3, h4, by simp, h6, h7, h8, h9, h10⟩
  | dropSynchronizing hd =>
    exact ⟨h1, h2, h3, h4, h5, h6, h7, by simp, by simp [hd], h10⟩
  | dropSynchronized hd =>
    have hn : ¬ d.sampleCnt.toNat < 500 := by rw [← h3, hd]; simp
    exact ⟨h1, h2, by simpa using hn, h4, h5, fun _ => h6 (by simp [hd]), h7, by simp, by simp, fun _ => rfl⟩

/-- Restart keeps the decoder's invariant. -/
theorem restart_keeps {d : Decoder} (h : DecoderInv d) :
    DecoderInv
      { d with
        dstate := .discoverClock, sampleCnt := 0, dcPrevValid := false, refValid := false, last := 0 } := by
  obtain ⟨h1, h2, h3, h4, h5, h6, h7, h8, h9, h10⟩ := h
  exact ⟨h1, by simp, by simp, by simp, by simp, by simp, h7, by simp, by simp, by simp⟩

end Sys2Proof.Machine
end

