-- ==== Sys2Proof/Laws/PerInstr.lean ====
section
/-! SUPPORT. A fact about every instruction as syntax, made one constructor at a time: the encoder puts a
row's word on the port of the row's format (spec/opcode_table.json "format"; 30_encoding.md R116). -/

namespace Sys2Proof.Laws.Format

/-- The word of an instruction is presented at the port its row's format names. -/
def Statement (i : Instr) : Prop := (encode i).port = i.port

theorem fe (ts : Tick) : Statement (.fe ts) := rfl
theorem re (ts : Tick) : Statement (.re ts) := rfl
theorem drop : Statement .drop := rfl
theorem rsvdEdge : Statement .rsvdEdge := rfl
theorem symLow : Statement .symLow := rfl
theorem symHigh : Statement .symHigh := rfl
theorem symInvalid : Statement .symInvalid := rfl
theorem symRsvd : Statement .symRsvd := rfl
theorem rd (a : BitVec 6) : Statement (.rd a) := rfl
theorem wrCtrl (d : BitVec 3) : Statement (.wrCtrl d) := rfl
theorem wrCmdRestart : Statement .wrCmdRestart := rfl
theorem wrCmdNop : Statement .wrCmdNop := rfl
theorem wrStatusAck (e : BitVec 5) : Statement (.wrStatusAck e) := rfl
theorem wrOther (a : BitVec 6) : Statement (.wrOther a) := rfl

end Sys2Proof.Laws.Format
end

