-- ==== Sys2Proof/Laws/Step.lean ====
section
/-! SUPPORT. What a step finds at the ports (70_reset_and_hazards.md R290, R301): nothing to perform, or a word
with the input side advanced; and that no row touches the input side. -/

namespace Sys2Proof.Machine

open Sys2Proof.Safety

/-- What the ports leave with nothing to perform. -/
theorem settled_cases {s t : State} (h : fetch s = .settled t) :
    ∃ env : Env, (∀ x ∈ env.inputs, x ∈ s.env.inputs) ∧
    (t = { s with out := Outputs.silent, env := env } ∨ t = { State.reset with env := env }) := by
  have drv : ∀ (b : Bool) (l : List Input), (∀ x ∈ l, x ∈ s.env.inputs) →
      t = driveRstN b (withInputs l s) → ∃ env : Env, (∀ x ∈ env.inputs, x ∈ s.env.inputs) ∧
        (t = { s with out := Outputs.silent, env := env } ∨ t = { State.reset with env := env }) := by
    intro b l hl ht
    unfold driveRstN at ht
    split_ifs at ht
    · exact ⟨_, hl, .inl ht⟩
    · refine ⟨{ s.env with rstN := b, inputs := l }, hl, .inr ht⟩
  unfold fetch at h
  split_ifs at h with hr
  · split at h
    · exact ⟨s.env, fun x hx => hx, .inl (by simp only [Fetched.settled.injEq] at h; exact h.symm)⟩
    · rename_i b rest he; exact drv b rest (by simp [he]; tauto) (by simpa using h.symm)
    · rename_i v rest he
      exact ⟨{ s.env with wallTime := v, inputs := rest }, by simp [he]; tauto, .inl (by simp at h; exact h.symm)⟩
    · simp at h
    · unfold arbitrate at h; split_ifs at h
  · simp only [Fetched.settled.injEq] at h
    unfold fetchInReset at h
    have hsub : ∀ y rest, s.env.inputs.dropWhile Input.isTransaction = y :: rest →
        ∀ x ∈ s.env.inputs.takeWhile Input.isTransaction ++ rest, x ∈ s.env.inputs := by
      intro y rest he x hx
      rw [← List.takeWhile_append_dropWhile (p := Input.isTransaction) (l := s.env.inputs), he]
      simp at hx ⊢; tauto
    simp only at h
    split at h
    · rename_i b rest he; exact drv b _ (hsub _ _ he) h.symm
    · rename_i v rest he
      exact ⟨{ s.env with wallTime := v, inputs := _ }, hsub _ _ he, .inl h.symm⟩
    · exact ⟨s.env, fun x hx => hx, .inl h.symm⟩

/-- A word offered is performed in the same state but for the input side, which gains no symbol item. -/
theorem offered_cases {s u : State} {w : PortWord} (h : fetch s = .offered w u) :
    ∃ env : Env, u = { s with env := env } ∧
      (∀ x ∈ env.inputs, isSymbolItem x = true → x ∈ s.env.inputs) ∧
      (w.port = .sym → .word w ∈ s.env.inputs) := by
  unfold fetch at h
  split_ifs at h with hr
  split at h <;> try (simp at h; done)
  · rename_i v rest he
    simp only [Fetched.offered.injEq] at h
    obtain ⟨rfl, rfl⟩ := h
    exact ⟨{ s.env with inputs := rest }, rfl, by simp [he]; tauto, by simp [he]⟩
  · rename_i e g rest he
    unfold arbitrate at h
    split_ifs at h <;> simp only [Fetched.offered.injEq] at h <;> obtain ⟨rfl, rfl⟩ := h
    · exact ⟨_, rfl, by simp [he, isSymbolItem]; tauto, by simp [PortWord.port]⟩
    · exact ⟨_, rfl, by simp [he, isSymbolItem]; tauto, by simp [PortWord.port]⟩

/-- No row touches the input side. -/
theorem exec_env {i : Instr} {s t : State} (h : exec i s = .next t) : t.env = s.env := by
  rcases port_cases i with hp | hp | hp
  · obtain ⟨y, d, b, e, -, rfl⟩ := exec_edge_next hp h
    rw [framerPart_env]
    rfl
  · obtain ⟨y, -, rfl⟩ := exec_sym_next hp h
    simp [quiet]
  · rcases exec_host_next hp h with ⟨o, rfl⟩ | ⟨d, o, -, rfl⟩ | ⟨e, -, rfl⟩ | ⟨-, rfl⟩ <;> rfl

end Sys2Proof.Machine
end

