-- ==== Sys2Proof/Tests/Slice0.lean ====
section
/-! SUPPORT. Tests on fixed values taken from 95_test_vectors.md, and for every statement with hypotheses a
witness that they can be met. -/

namespace Sys2Proof.Tests

open Sys2Proof.Machine Sys2Proof.Safety

/-! ### Helpers -/

/-- The next state, if there is one. -/
def nextOf (o : Host.Outcome State Fault Refusal) : Option State :=
  match o with
  | .next t => some t
  | .fault _ => none
  | .refused _ => none

/-- The decoder of the vectors of 95_test_vectors.md 3: HALF_T = 10 ms, SENS = 6 ms. -/
def decoder (m : DState) (ref : Int) (last : BitVec 2) : Decoder :=
  { State.reset.dec with
    dstate := m, sampleCnt := 500, dcPrevValid := true, lastTs := 1000000000, lastTsValid := true
    halfT := 10000000, sens := 6000000, calValid := true, ref := BitVec.ofInt 65 ref, refValid := true
    last := last }

/-- A state with that decoder. -/
def decoding (m : DState) (ref : Int) (last : BitVec 2) : State :=
  { State.reset with dec := decoder m ref last }

/-- A framer in `Receiving`. -/
def receiving (bitIndex : Fin 10) (shift : Byte) (bufLen : BitVec 8) (buf : List Byte) : State :=
  { State.reset with
    frm :=
      { fstate := .receiving, syncCnt := 0, bitIndex := bitIndex, shift := shift, buf := buf, bufLen := bufLen } }

/-- A framer in `AwaitingSync` with a sync count. -/
def awaiting (n : BitVec 8) : State :=
  { State.reset with frm := { State.reset.frm with syncCnt := n } }

/-- A raw frame in the slot, at the wall time of the parser vectors. -/
def slotted (bytes : List Byte) : State :=
  { State.reset with
    rawSlot :=
      { raw := bytes ++ List.replicate (16 - bytes.length) 0#8, rawLen := BitVec.ofNat 8 bytes.length
        rawSeq := 1 }
    env := { State.reset.env with wallTime := 0x0000000100000002#64 } }

/-- The bytes of S1. -/
def s1 : List Byte := [0x10#8, 0x2C#8, 0x01#8, 0x58#8, 0x02#8, 0x84#8, 0x03#8, 0xB0#8, 0x04#8, 0x60#8]

/-- The bytes of S1, the slot's full 16. -/
def s1Buf : List Byte := s1 ++ [0#8, 0#8, 0#8, 0#8, 0#8, 0#8]

/-- A decoder with these samples. -/
def sampled (l : List Tick) : Decoder := { State.reset.dec with samples := l }

/-- Parameters with `SAMPLE_N` = 5, as the calibration vectors have. -/
def five : Params := { Config.dlrx with sampleN := 5 }

/-- The schedule of a state. -/
def offering (l : List Input) (s : State) : State := { s with env := { s.env with inputs := l } }

/-! ### WellFormed: the one check there is, on the one row that can fail it -/

theorem test_wellFormed_other : (Instr.wrOther 0x10#6).wellFormed = true := by decide
theorem test_illFormed_other_ctrl : (Instr.wrOther 1#6).wellFormed = false := by decide
theorem test_illFormed_other_cmd : (Instr.wrOther 2#6).wellFormed = false := by decide
theorem test_illFormed_other_status : (Instr.wrOther 3#6).wellFormed = false := by decide

/-! ### Decode: one word a row, written out from 30_encoding.md -/

theorem test_decode_fe : decode (.edge 0x0000000003CCBF700#66) = .fe 1020000000 := by decide
theorem test_decode_re : decode (.edge 0x10000000001312D00#66) = .re 20000000 := by decide
theorem test_decode_drop : decode (.edge 0x20000000000000005#66) = .drop := by decide
theorem test_decode_rsvdEdge : decode (.edge 0x300000000000000C8#66) = .rsvdEdge := by decide
theorem test_decode_symLow : decode (.sym 0b00#2) = .symLow := by decide
theorem test_decode_symHigh : decode (.sym 0b01#2) = .symHigh := by decide
theorem test_decode_symInvalid : decode (.sym 0b10#2) = .symInvalid := by decide
theorem test_decode_symRsvd : decode (.sym 0b11#2) = .symRsvd := by decide
theorem test_decode_rd : decode (.host 0x00F00001234#41) = .rd 3#6 := by decide
theorem test_decode_wrCtrl : decode (.host 0x10400000005#41) = .wrCtrl 5#3 := by decide
theorem test_decode_wrCmdRestart : decode (.host 0x10BFFFFFFFF#41) = .wrCmdRestart := by decide
theorem test_decode_wrCmdNop : decode (.host 0x10800000002#41) = .wrCmdNop := by decide
theorem test_decode_wrStatusAck : decode (.host 0x10C00001000#41) = .wrStatusAck 0b10000#5 := by decide
theorem test_decode_wrOther : decode (.host 0x1A000001234#41) = .wrOther 0x28#6 := by decide

theorem test_encode_fe : encode (.fe 1020000000) = .edge 0x0000000003CCBF700#66 := by decide
theorem test_encode_wrCtrl : encode (.wrCtrl 7) = .host 0x10400000007#41 := by decide

theorem test_bits_too_wide : decodeBits 48 (2 ^ 41) = .error .tooWide := by rfl
theorem test_bits_no_format : decodeBits 32 0 = .error .noSuchFormat := by rfl

/-! ### Interval class and calibration (95_test_vectors.md 3.1, 3.2) -/

theorem test_DEC_Q_3 : intervalClass Config.dlrx 6000000 10000000 5999999 = 0 ∧
    intervalClass { Config.dlrx with quotRound := .trunc } 6000000 10000000 5999999 = 1 := by decide
theorem test_DEC_Q_7 : intervalClass Config.dlrx 6000000 10000000 15999999 = 1 ∧
    intervalClass Config.dlrx 6000000 10000000 16000000 = 2 := by decide
theorem test_DEC_CAL_1 :
    (fun d : Decoder => (d.halfT, d.sens, d.fullEst))
      (calibrate five (sampled [10000000, 11000000, 9000000, 20000000, 10000000])) =
        (10333333, 6199999, 0) := by decide
theorem test_DEC_CAL_3 :
    (fun d : Decoder => (d.halfT, d.sens, d.fullEst))
      (calibrate five (sampled [1000000, 10000000, 15000000, 15000001, 40000000])) =
        (12500000, 7500000, 15000001) := by decide

/-! ### Edge-port rows (95_test_vectors.md 3.3 to 3.6) -/

theorem test_fe_DEC_SYN_5 :
    (nextOf (exec (.fe 1016000000) (decoding .synchronizing 1000000000 0))).map
      (fun t => (t.dec.dstate, t.dec.ref.toInt, t.out.symTap)) = some (.synchronized, 1006000000, none) := by
  decide
theorem test_fe_DEC_SD_7 :
    (nextOf (exec (.fe 1040000000) (decoding .synchronized 1030000000 2))).map
      (fun t => (t.dec.last, t.dec.ref.toInt, t.out.symTap)) = some (1, 1030000000, some 0b01) := by
  decide
theorem test_re_DEC_SYN_2 :
    (nextOf (exec (.re 1020000000) (decoding .synchronizing 1000000000 0))).map
      (fun t => (t.dec.dstate, t.dec.ref.toInt)) = some (.synchronizing, 1020000000) := by
  decide
theorem test_re_DEC_SD_13 :
    (nextOf (exec (.re 1060000000) (decoding .synchronized 1030000000 1))).map
      (fun t => (t.dec.last, t.dec.ref.toInt, t.out.symTap)) = some (3, 1050000000, some 0b00) := by
  decide
theorem test_drop_DEC_DROP_3 :
    (nextOf (exec .drop
      { receiving 3 0 4 (List.replicate 16 0#8) with dec := decoder .synchronized 1030000000 1 })).map
      (fun t => (t.cnt.drop, t.cnt.invalid, t.dec.dstate, t.frm.bufLen, t.out.symTap)) =
        some (1, 1, .synchronizing, 0, some 0b10) := by
  decide
theorem test_drop_DEC_DROP_1 :
    (nextOf (exec .drop { State.reset with
      dec := { State.reset.dec with dcPrevValid := true, sampleCnt := 7 } })).map
      (fun t => (t.cnt.drop, t.dec.dcPrevValid, t.dec.sampleCnt)) = some (1, false, 7) := by
  decide
theorem test_rsvdEdge_DEC_TS_5 :
    (nextOf (exec .rsvdEdge (decoding .synchronizing 1000000000 0))).map
      (fun t => (t.flags.inErr, t.cnt.drop, t.dec.refValid, t.dec.lastTs)) =
        some (true, 1, false, 1000000000) := by
  decide

/-! ### Symbol rows (95_test_vectors.md 4) -/

theorem test_symLow_FRM_2 :
    (nextOf (exec .symLow (awaiting 16))).map
      (fun t => (t.frm.fstate, t.frm.bitIndex, t.frm.syncCnt, t.frm.bufLen)) =
        some (.receiving, 1, 0, 0) := by
  decide
theorem test_symLow_FRM_1 :
    (nextOf (exec .symLow (awaiting 15))).map (fun t => (t.frm.fstate, t.frm.syncCnt)) =
      some (.awaitingSync, 0) := by
  decide
theorem test_symHigh_FRM_8 :
    (nextOf (exec .symHigh (receiving 0 0x10 1 (0x10#8 :: List.replicate 15 0#8)))).map
      (fun t => (t.rawSlot.rawLen, regRead 18 t, t.rawSlot.rawSeq, t.res.code, t.frm.syncCnt)) =
        some (1, 0x00000010, 1, .size, 1) := by
  decide
theorem test_symHigh_FRM_3 :
    (nextOf (exec .symHigh (awaiting 255))).map (fun t => t.frm.syncCnt) = some 255 := by decide
theorem test_symInvalid_FRM_7 :
    (nextOf (exec .symInvalid (receiving 6 0x18 1 (List.replicate 16 0#8)))).map
      (fun t => (t.frm.fstate, t.frm.bufLen, t.frm.bitIndex, t.cnt.framing)) =
        some (.awaitingSync, 0, 0, 0) := by
  decide
/-- With `DATA_BITS` = 7 the stop position is 8 (00_scope.md R7; 42_dlbus_framer.md R170, R176). -/
theorem test_dataBits_parameter :
    (framer { Config.dlrx with dataBits := 7 } .low (receiving 8 0 0 s1Buf)).cnt.framing = 1 := by decide

/-- `SAMPLE_N` and `FRAME_CAP` size `SAMPLES`, `BUF` and `RAW` at reset (00_scope.md R7). -/
theorem test_reset_follows_parameters :
    let s := State.resetOf { Config.dlrx with sampleN := 5, frameCap := 32 }
    s.dec.samples.length = 5 ∧ s.frm.buf.length = 32 ∧ s.rawSlot.raw.length = 32 := by decide

theorem test_symRsvd_refused : exec .symRsvd State.reset = .refused .symCodeReserved := by rfl

/-! ### Parser (95_test_vectors.md 1.1 and 5) -/

theorem test_parse_S1 :
    (fun t : State => (t.res.code, regRead 26 t, regRead 27 t, regRead 25 t, regRead 28 t, regRead 29 t))
      (parse Config.dlrx (slotted s1)) = (.ok, 0x0258012C, 0x04B00384, 0x7, 2, 1) := by
  decide
theorem test_parse_PAR_1 :
    (fun t : State => (t.res.code, regRead 26 t))
      (parse Config.dlrx (slotted [0x10#8, 0x0C#8, 0xFE#8, 0#8, 0#8, 0#8, 0#8, 0#8, 0#8, 0#8])) =
        (.ok, 0x0000FE0C) := by
  decide
theorem test_parse_PAR_3 :
    (fun t : State => (t.res.code, t.snap.valid, t.cnt.temp, t.flags.errNew))
      (parse Config.dlrx (slotted [0x10#8, 0#8, 0#8, 0x0B#8, 0xFE#8, 0#8, 0#8, 0#8, 0#8, 0#8])) =
        (.temp, false, 1, true) := by
  decide
theorem test_parse_PAR_8 :
    (parse Config.dlrx (slotted [0x30#8, 0#8, 0x80#8, 0#8, 0#8, 0#8, 0#8, 0#8, 0#8, 0#8])).res.code = .device := by
  decide

/-! ### Host rows (95_test_vectors.md 6) -/

/-- `RESULT` by 30_encoding.md R107. -/
theorem test_rd_result_codes :
    [ResCode.none, .ok, .size, .device, .temp].map
      (fun c => regRead 30 { State.reset with res := { code := c, seq := 0 } }) = [0, 1, 2, 3, 4] := by decide

/-- `STATUS[1:0]` by 10_state.md R34. -/
theorem test_rd_decoder_states :
    [DState.discoverClock, .synchronizing, .synchronized].map
      (fun m => regRead 3 (decoding m 0 0) &&& 3) = [0, 1, 2] := by decide

theorem test_rd_HOST_1 :
    (nextOf (exec (.rd 0) State.reset)).map (fun t => t.out.hostRdata) = some (some 0x444C4201) := by decide
theorem test_rd_HOST_13 :
    (nextOf (exec (.rd 3)
      { State.reset with ctrl := 4, flags := { State.reset.flags with inErr := true } })).map
      (fun t => t.out.hostRdata) = some (some 0x1010) := by
  decide
theorem test_wrCtrl_HOST_14 :
    (nextOf (exec (.wrCtrl 0)
      { State.reset with ctrl := 2, flags := { State.reset.flags with snapNew := true } })).map
      (fun t => (t.irq, t.flags.snapNew)) = some (false, true) := by
  decide
theorem test_wrStatusAck_HOST_4 :
    (nextOf (exec (.wrStatusAck 1)
      { State.reset with flags := { State.reset.flags with rawReady := true, snapNew := true } })).map
      (regRead 3) = some 0x0400 := by
  decide
theorem test_wrStatusAck_HOST_5 :
    (nextOf (exec (decode (.host 0x10C0000001F#41))
      { State.reset with flags := ⟨true, true, true, true, true⟩ })).map (fun t => t.flags) =
        some ⟨true, true, true, true, true⟩ := by
  decide
theorem test_wrCmdRestart_HOST_10 :
    (nextOf (exec .wrCmdRestart
      { receiving 3 0 4 (List.replicate 16 0#8) with dec := decoder .synchronized 1030000000 1 })).map
      (fun t => (t.dec.dstate, t.frm.fstate, t.frm.bufLen, t.dec.sampleCnt, t.dec.halfT)) =
        some (.discoverClock, .awaitingSync, 0, 0, 10000000) := by
  decide
theorem test_wrCmdNop_HOST_8 :
    (nextOf (exec .wrCmdNop (decoding .synchronized 1030000000 1))).map
      (fun t => (t.dec.dstate, t.dec.last)) = some (.synchronized, 1) := by
  decide
theorem test_wrOther_HOST_7 :
    (nextOf (exec (.wrOther 0x10) State.reset)).map (fun t => regRead 0x10 t) = some 0 := by decide

/-! ### The step runs the placed word from reset -/

theorem test_step_fe :
    (nextOf (step (State.reset.withFetchWord 72 0x00000000000000064))).map
      (fun t => (t.dec.lastTs, t.dec.lastTsValid, t.dec.dcPrevValid, t.env.inputs)) =
        some (100, true, true, []) := by
  decide
theorem test_step_rd :
    (nextOf (step (State.reset.withFetchWord 48 0x00300000000))).map (fun t => t.out.hostRdata) =
      some (some 0x444C4201) := by
  decide
theorem test_step_idle : (nextOf (step State.reset)).map (fun t => t.out) = some Outputs.silent := by decide

/-! ### Witnesses: the hypotheses of every statement that has some, clause by clause -/

theorem witness_DecodeOfEncodeIsTheInstruction :
    (Instr.wrOther 63#6).wellFormed = true ∧ (Instr.wrOther 0#6).wellFormed = true ∧
      (Instr.wrOther 4#6).wellFormed = true := by decide

theorem witness_EncodeOfDecodeKeepsTheReadBits :
    (0x1FFFFFFFFFFFFFFFF#66).getLsbD 65 = false ∧
    (let w := 0x104FFFFFFFF#41; w.getLsbD 40 = true ∧ w.extractLsb' 34 6 = 1) ∧
    (let w := 0x108FFFFFFFF#41; w.getLsbD 40 = true ∧ w.extractLsb' 34 6 = 2) ∧
    (let w := 0x10CFFFFFFFF#41; w.getLsbD 40 = true ∧ w.extractLsb' 34 6 = 3) := by decide

theorem witness_IgnoredBitsDoNotReachTheInstruction :
    (let w := 0x200000000000000C8#66; let v := 0x20000000000000000#66;
      w ≠ v ∧ w.getLsbD 65 = true ∧ v.extractLsb' 64 2 = w.extractLsb' 64 2) ∧
    (let w := 0x10400000005#41; let v := 0x107FFFFFFFD#41;
      w ≠ v ∧ v.getLsbD 40 = w.getLsbD 40 ∧ v.extractLsb' 34 6 = w.extractLsb' 34 6 ∧
        w.extractLsb' 34 6 = 1 ∧ v.extractLsb' 0 3 = w.extractLsb' 0 3) ∧
    (let w := 0x10800000001#41; let v := 0x10BFFFFFFFF#41;
      w ≠ v ∧ v.getLsbD 40 = w.getLsbD 40 ∧ v.extractLsb' 34 6 = w.extractLsb' 34 6 ∧
        w.extractLsb' 34 6 = 2 ∧ v.getLsbD 0 = w.getLsbD 0) ∧
    (let w := 0x10C00001F00#41; let v := 0x10FFFFFFFFF#41;
      w ≠ v ∧ v.getLsbD 40 = w.getLsbD 40 ∧ v.extractLsb' 34 6 = w.extractLsb' 34 6 ∧
        w.extractLsb' 34 6 = 3 ∧ v.extractLsb' 8 5 = w.extractLsb' 8 5) ∧
    (let w := 0x00C00000000#41; let v := 0x00FFFFFFFFF#41;
      w ≠ v ∧ v.getLsbD 40 = w.getLsbD 40 ∧ v.extractLsb' 34 6 = w.extractLsb' 34 6 ∧
        w.getLsbD 40 = false) := by decide

theorem witness_StepPerformsTheDecodedWord :
    let w := PortWord.host 0x00C00000000#41
    let s := offering [.word w] State.reset
    s.env.rstN = true ∧ s.env.inputs = .word w :: [] ∧ decode w = .rd 3 ∧
      (Instr.rd 3).wellFormed = true := by decide

theorem witness_OfferedTogetherAreBothPerformed :
    let s := offering [.both 0x64#66 0x00C00000000#41] State.reset
    s.env.rstN = true ∧ s.env.inputs = .both 0x64#66 0x00C00000000#41 :: [] := by decide

theorem witness_NothingOfferedHoldsTheState :
    State.reset.env.inputs = [] ∧ (offering [.wall 7] State.reset).env.inputs = .wall 7 :: [] := by decide

/-- In reset with one word offered twice and the end of reset after it, and with the end of reset next. -/
theorem witness_ResetGivesEveryElementItsValue :
    let w : Input := .word (.edge 0x64#66)
    let s : State := { State.reset with env := ⟨false, 0, [w, w, .rstN true], 0⟩ }
    let u : State := { State.reset with env := ⟨false, 0, [.rstN true, w], 0⟩ }
    s.env.rstN = false ∧ s.env.inputs.filter Input.isTransaction = [w, w] ∧
      u.env.rstN = false ∧ u.env.inputs = .rstN true :: [w] := by decide

theorem witness_FallingResetClearsAnyState :
    let s := offering [.rstN false] (decoding .synchronized 1030000000 1)
    s.env.rstN = true ∧ s.env.inputs = .rstN false :: [] := by decide

/-- The last accepted time itself is diverted; the next tick is not. -/
theorem witness_DivertedEdgesAreDropsWithInerr :
    ¬ Accepted 1000000000 (decoder .synchronized 1030000000 1) ∧
      Accepted 1000000001 (decoder .synchronized 1030000000 1) := by decide

/-- The first edge, a recorded one, and the one that completes the count. -/
theorem witness_DiscoverEdgeFollowsItsRule :
    let d : Decoder := { State.reset.dec with dcPrevValid := true, lastTs := 10, lastTsValid := true }
    (Accepted 0 State.reset.dec ∧ State.reset.dec.dstate = .discoverClock ∧
      State.reset.dec.dcPrevValid = false) ∧
    (Accepted 11 d ∧ d.dstate = .discoverClock ∧ d.dcPrevValid = true ∧ d.sampleCnt + 1 ≠ 500) ∧
    (let d' : Decoder := { d with sampleCnt := 499 };
      Accepted 11 d' ∧ d'.dstate = .discoverClock ∧ d'.dcPrevValid = true ∧ d'.sampleCnt + 1 = 500) := by
  decide

/-- 500 equal samples: `F` empty, every sample positive. -/
theorem witness_CalibrationFollowsItsRules :
    let d := sampled (List.replicate 500 10000000#64)
    let S := List.replicate 500 10000000
    d.samples.length = 500 ∧ S.Perm (d.samples.map BitVec.toNat) ∧ S.Pairwise (· ≤ ·) ∧
      ∀ x ∈ S, 1 ≤ x := by
  refine ⟨List.length_replicate, ?_, ?_, ?_⟩
  · change (List.replicate 500 10000000).Perm ((List.replicate 500 10000000#64).map BitVec.toNat)
    rw [List.map_replicate]
    exact List.Perm.refl _
  · exact List.pairwise_replicate.mpr (.inr le_rfl)
  · intro x hx
    rw [List.eq_of_mem_replicate hx]
    decide

theorem witness_ClockDiscoveryConverges :
    let d := sampled (List.replicate 2 10000000#64 ++ List.replicate 498 20000000#64)
    let T := 10000000
    d.samples.length = 500 ∧
    (∀ x ∈ d.samples, (19 * T ≤ 20 * x.toNat ∧ 20 * x.toNat ≤ 21 * T) ∨
      (38 * T ≤ 20 * x.toNat ∧ 20 * x.toNat ≤ 42 * T)) ∧
    2 ≤ (d.samples.filter (fun x => 20 * x.toNat ≤ 21 * T)).length := by
  intro d T
  have hd : d.samples = List.replicate 2 10000000#64 ++ List.replicate 498 20000000#64 := rfl
  refine ⟨by rw [hd, List.length_append, List.length_replicate, List.length_replicate], ?_, ?_⟩
  · intro x hx
    rw [hd, List.mem_append] at hx
    rcases hx with h | h
    · rw [List.eq_of_mem_replicate h]; left; decide
    · rw [List.eq_of_mem_replicate h]; right; decide
  · rw [hd, List.filter_append, List.length_append]
    exact Nat.le_add_right 2 _

/-- The smallest period; an interval at `SENS`, and the longest and shortest that `TRUNC` classes as 1. -/
theorem witness_IntervalClassHasItsBands :
    0 < (1#64).toNat ∧ ({ Config.dlrx with quotRound := .trunc } : Params).quotRound = .trunc ∧
    (let sens := 6000000#64; let halfT := 10000000#64;
      ((sens.toNat : Int) ≤ 6000000) ∧
      (-(halfT.toNat : Int) < 5999999 - sens.toNat ∧ (5999999 : Int) - sens.toNat < 0) ∧
      (-(halfT.toNat : Int) < -3999999 - sens.toNat ∧ (-3999999 : Int) - sens.toNat < 0)) := by decide

/-- A calibrated decoder that meets the invariant, with a reference below 0. -/
theorem witness_DecoderInv :
    DecoderInv
      { State.reset.dec with
        dstate := .synchronized, sampleCnt := 500, samples := List.replicate 500 1#64, dcPrevValid := true
        lastTs := 1, lastTsValid := true, halfT := 5, sens := 3, calValid := true
        ref := refBefore 1 5, refValid := true } where
  samples_len := List.length_replicate
  count_le := by decide
  discovering := by decide
  samples_pos := by
    intro j hj
    have hj : j < 500 := hj
    rw [List.getD_eq_getElem?_getD, List.getElem?_replicate_of_lt hj]
    decide
  prev_valid := by decide
  calibrated := by decide
  sens_rule := by decide
  ref_past := by decide
  synced_ref := by decide
  last_zero := by decide

/-- A decoder that meets the invariant and has one edge, in `DiscoverClock`. -/
theorem witness_DecoderInv_discovering :
    DecoderInv { State.reset.dec with dcPrevValid := true, lastTs := 10, lastTsValid := true } where
  samples_len := List.length_replicate
  count_le := by decide
  discovering := by decide
  samples_pos := fun j hj => absurd hj (Nat.not_lt_zero j)
  prev_valid := by decide
  calibrated := by decide
  sens_rule := by decide
  ref_past := by decide
  synced_ref := by decide
  last_zero := by decide

/-- A sample of one tick and the longest sample; an accepted edge with a reference below 0. -/
theorem witness_DecoderTimesAreExact :
    (∃ d, DecoderInv d ∧ d.dstate = .discoverClock ∧ d.dcPrevValid = true ∧ Accepted 11 d ∧
      Accepted 0xFFFFFFFFFFFFFFFF d) ∧
    ∃ d ts, DecoderInv d ∧ d.dstate ≠ .discoverClock ∧ d.refValid = true ∧ Accepted ts d :=
  ⟨⟨_, witness_DecoderInv_discovering, by decide, by decide, by decide, by decide⟩,
    _, 2, witness_DecoderInv, by decide, by decide, by decide⟩

/-- Both bounds of the band of interval 2, one tick outside each, and a missing reference. -/
theorem witness_SyncingEdgeFollowsItsRule :
    let d := decoder .synchronizing 1000000000 0
    d.dstate = .synchronizing ∧ Accepted 1015999999 d ∧ edgeClass 1015999999 d = 1 ∧
    Accepted 1016000000 d ∧ edgeClass 1016000000 d = 2 ∧ Accepted 1025999999 d ∧
    edgeClass 1025999999 d = 2 ∧ edgeClass 1026000000 d = 3 ∧ d.refValid = true ∧
    (let d' : Decoder := { d with refValid := false };
      d'.dstate = .synchronizing ∧ Accepted 1020000000 d' ∧ d'.refValid = false) := by decide

/-- An edge in each row of the acceptance table, and one in none. -/
theorem witness_SyncedEdgeFollowsItsTable :
    let d (last : BitVec 2) := decoder .synchronized 1030000000 last
    (∀ last : BitVec 2, (d last).dstate = .synchronized) ∧
    (Accepted 1046000000 (d 0) ∧ edgeClass 1046000000 (d 0) = 2 ∧ (d 0).last ≠ 2) ∧
    (Accepted 1036000000 (d 2) ∧ edgeClass 1036000000 (d 2) = 1 ∧ (d 2).last = 2) ∧
    (Accepted 1065999999 (d 3) ∧ edgeClass 1065999999 (d 3) = 3 ∧ (d 3).last ≠ 2) ∧
    (Accepted 1045999999 (d 1) ∧ edgeClass 1045999999 (d 1) = 1 ∧ (d 1).last ≠ 2) ∧
    (Accepted 1046000000 (d 2) ∧ edgeClass 1046000000 (d 2) = 2 ∧ (d 2).last = 2) := by decide

theorem witness_SynchronizedTolerances :
    let d := decoder .synchronized 1030000000 1
    0 < d.halfT.toNat ∧ d.last ≠ 2 ∧
    (let e := elapsed 1046000000 d.ref;
      (d.halfT.toNat : Int) + d.sens.toNat ≤ e ∧ e < 2 * (d.halfT.toNat : Int) + d.sens.toNat) ∧
    (let e := elapsed 1056000000 d.ref;
      2 * (d.halfT.toNat : Int) + d.sens.toNat ≤ e ∧ e < 3 * (d.halfT.toNat : Int) + d.sens.toNat) := by
  decide

/-- A decoder just after a mid-bit edge at 1000000000: the next bit starts 10 ms later. -/
theorem witness_EveryValidWaveformIsDecoded :
    let s := decoding .synchronized 990000000 3
    let t0 := 1010000000
    s.dec.dstate = .synchronized ∧ s.dec.last ≠ 2 ∧ s.dec.sens.toNat = 6 * s.dec.halfT.toNat / 10 ∧
      2 ≤ s.dec.halfT.toNat ∧ s.dec.ref.toInt = (t0 : Int) - 2 * s.dec.halfT.toNat ∧
      s.dec.lastTs.toNat < t0 ∧ t0 + 2 * s.dec.halfT.toNat * [true, false, false].length < 2 ^ 64 := by
  decide

/-- ENC-12: the edges of "11" from a high line, and ENC-13: of "10". -/
theorem test_ENC_12_13 :
    manchesterEdges 10000000 0 true [true, true] =
      [(.falling, 10000000), (.rising, 20000000), (.falling, 30000000)] ∧
    manchesterEdges 10000000 0 true [true, false] = [(.falling, 10000000), (.rising, 30000000)] := by
  decide

theorem witness_EdgesOfAGoodFrameReachTheSnapshot :
    let s := decoding .synchronized 990000000 1
    let t0 := 1010000000
    s.dec.dstate = .synchronized ∧ s.dec.last ≠ 2 ∧ s.dec.sens.toNat = 6 * s.dec.halfT.toNat / 10 ∧
      2 ≤ s.dec.halfT.toNat ∧ s.dec.ref.toInt = (t0 : Int) - 2 * s.dec.halfT.toNat ∧
      s.dec.lastTs.toNat < t0 ∧ t0 + 2 * s.dec.halfT.toNat * 117 < 2 ^ 64 ∧
      s.frm.fstate = .awaitingSync ∧ s.frm.buf.length = 16 ∧ s1.length = 10 ∧
      s1.getD 0 0#8 = 0x10 ∧ AllInRange s1 := by decide

/-- The count one below the gap and at it, and the saturated count. -/
theorem witness_AwaitSyncFollowsItsRule :
    (awaiting 15).frm.fstate = .awaitingSync ∧ ¬ 16 ≤ (awaiting 15).frm.syncCnt.toNat ∧
    (awaiting 16).frm.fstate = .awaitingSync ∧ 16 ≤ (awaiting 16).frm.syncCnt.toNat ∧
    (awaiting 255).frm.fstate = .awaitingSync ∧ (awaiting 255).frm.syncCnt = 255 := by decide

theorem witness_InvalidDiscardsTheFrame :
    (receiving 6 0x18 1 s1Buf).frm.fstate = .receiving := by decide

theorem witness_ByteRecordBitsFollowTheirRules :
    (receiving 0 0 1 s1Buf).frm.fstate = .receiving ∧ (receiving 0 0 1 s1Buf).frm.bitIndex = 0 ∧
    (receiving 1 0 1 s1Buf).frm.fstate = .receiving ∧
    (receiving 1 0 1 s1Buf).frm.bitIndex.val = (0 : Fin 8).val + 1 ∧
    (receiving 8 0 1 s1Buf).frm.bitIndex.val = (7 : Fin 8).val + 1 ∧
    (receiving 9 0 15 s1Buf).frm.fstate = .receiving ∧ (receiving 9 0 15 s1Buf).frm.bitIndex = 9 ∧
    (receiving 9 0 15 s1Buf).frm.bufLen.toNat < 16 ∧
    ¬ (receiving 9 0 255 s1Buf).frm.bufLen.toNat < 16 ∧ (receiving 9 0 255 s1Buf).frm.bufLen = 255 := by
  decide

theorem witness_LowStopBitIsAFramingError :
    (receiving 9 0x10 0 s1Buf).frm.fstate = .receiving ∧ (receiving 9 0x10 0 s1Buf).frm.bitIndex = 9 := by
  decide

/-- A short frame, and one longer than the slot. -/
theorem witness_MissingStartBitCompletesTheFrame :
    ((receiving 0 0x60 10 s1Buf).frm.fstate = .receiving ∧ (receiving 0 0x60 10 s1Buf).frm.bitIndex = 0) ∧
    (receiving 0 0x60 17 s1Buf).frm.fstate = .receiving ∧ (receiving 0 0x60 17 s1Buf).frm.bitIndex = 0 := by
  decide

theorem witness_FramerReassemblesTheStream :
    let frames := [s1, [0x10#8], s1Buf]
    State.reset.frm.fstate = .awaitingSync ∧ State.reset.frm.buf.length = 16 ∧
      ∀ f ∈ frames, 1 ≤ f.length ∧ f.length ≤ 16 := by decide

/-- A gap of exactly 16, and a frame of 17 bytes. -/
theorem witness_FrameOfAnyLengthCompletesOnce :
    State.reset.frm.fstate = .awaitingSync ∧ State.reset.frm.buf.length = 16 ∧
      16 ≤ State.reset.frm.syncCnt.toNat + 16 ∧ s1Buf ++ [0x77#8] ≠ [] := by decide

theorem witness_DataNeverResynchronisesTheFramer :
    (receiving 9 0 1 s1Buf).frm.fstate = .receiving ∧
    (framer Config.dlrx .high (receiving 9 0 1 s1Buf)).frm.fstate = .receiving ∧
    (framer Config.dlrx .low (receiving 9 0 1 s1Buf)).frm.fstate = .awaitingSync := by decide

/-- The two bounds of the range: t1 = -500, t4 = 3000. -/
theorem witness_GoodFramePublishesItsDecoding :
    let s := slotted [0x10#8, 0x0C#8, 0xFE#8, 0#8, 0#8, 0#8, 0#8, 0xB8#8, 0x0B#8, 0x60#8]
    s.rawSlot.rawLen = 10 ∧ s.rawSlot.raw.getD 0 0#8 = 0x10 ∧ AllInRange s.rawSlot.raw := by decide

/-- A frame of each rejection. -/
theorem witness_BadFrameIsCountedAndSnapshotKept :
    (parse Config.dlrx (slotted [0x30#8, 0x2C#8, 0x01#8])).res.code = .size ∧
    (parse Config.dlrx (slotted [0x30#8, 0#8, 0x80#8, 0#8, 0#8, 0#8, 0#8, 0#8, 0#8, 0#8])).res.code = .device ∧
    (parse Config.dlrx (slotted [0x10#8, 0#8, 0#8, 0x0B#8, 0xFE#8, 0#8, 0#8, 0#8, 0#8, 0#8])).res.code =
      .temp := by decide

/-- S1 waiting to be completed, and the same with t3 = 3001. -/
theorem witness_CompletedFrameReachesTheSnapshot :
    (let s := receiving 0 0x60 10 s1Buf;
      s.frm.fstate = .receiving ∧ s.frm.bitIndex = 0 ∧ s.frm.bufLen = 10 ∧ s.frm.buf.length = 16 ∧
        s.frm.buf.getD 0 0#8 = 0x10 ∧ AllInRange s.frm.buf) ∧
    (let s := receiving 0 0 10 ([0x10#8, 0#8, 0#8, 0#8, 0#8, 0xB9#8, 0x0B#8] ++ List.replicate 9 0#8);
      s.frm.fstate = .receiving ∧ s.frm.bitIndex = 0 ∧ s.frm.bufLen = 10 ∧ s.frm.buf.length = 16 ∧
        s.frm.buf.getD 0 0#8 = 0x10 ∧ ¬ AllInRange s.frm.buf) := by decide

theorem witness_ReadChangesNoState :
    ∃ t, exec (.rd 0x1A) State.reset = .next t := ⟨_, rfl⟩

/-- Word offsets 0x10 and 0xFC; `CTRL`, `CMD` and `STATUS` are none of them. -/
theorem witness_OtherWritesHaveNoEffect :
    (Instr.wrOther 4).wellFormed = true ∧ (Instr.wrOther 63).wellFormed = true ∧
      (Instr.wrOther 1).wellFormed = false := by decide

theorem witness_HostAccessesAreIdempotent :
    (Instr.wrStatusAck 0x1F).port = .host ∧ ∃ t, exec (.wrStatusAck 0x1F) State.reset = .next t :=
  ⟨rfl, _, rfl⟩

theorem witness_SlotRegistersReadTheirFields :
    (3 < 4 ∧ 3 < 4) ∧ (23#6 ∈ [13#6, 14#6, 15#6, 22#6, 23#6]) ∧ 40 ≤ (40#6).toNat ∧ 40 ≤ (63#6).toNat := by
  decide

theorem witness_EveryRowCompletesInEveryState : Instr.symHigh ≠ .symRsvd := by decide

/-- A state with every flag set, and a row that is no acknowledgement. -/
theorem witness_StickyFlagsAreClearedOnlyByAck :
    let s : State := { State.reset with flags := ⟨true, true, true, true, true⟩ }
    (∃ t, exec .wrCmdRestart s = .next t) ∧ (∀ e, Instr.wrCmdRestart ≠ .wrStatusAck e) ∧
      s.flags.rawReady = true ∧ s.flags.rawOverrun = true ∧ s.flags.snapNew = true ∧
      s.flags.errNew = true ∧ s.flags.inErr = true := by
  refine ⟨⟨_, rfl⟩, by decide, ?_⟩
  decide

/-- A row that counts an error in a state that has `ERR_NEW` clear. -/
theorem witness_ErrorEventsAreCountedAndFlagged :
    let s := receiving 9 0x10 0 s1Buf
    s.flags.errNew = false ∧ ∃ t, exec .symLow s = .next t ∧ t.cnt.framing ≠ s.cnt.framing :=
  ⟨by decide, _, rfl, by decide⟩

theorem witness_CountersStayOrCountOne :
    ∃ t, exec .drop State.reset = .next t ∧ t.cnt.drop = State.reset.cnt.drop + 1 := ⟨_, rfl, by decide⟩

theorem witness_TimestampsAndCalibrationHaveOneWriter :
    ∃ t, exec (.re 7) State.reset = .next t ∧ t.dec.lastTs ≠ State.reset.dec.lastTs :=
  ⟨_, rfl, by decide⟩

theorem witness_StageTransitionsAreTheTables :
    ∃ t, exec (.fe 1016000000) (decoding .synchronizing 1000000000 0) = .next t ∧
      t.dec.dstate = .synchronized := ⟨_, rfl, by decide⟩

theorem witness_OnlySynchronizedEmits :
    ∃ t, exec (.fe 1040000000) (decoding .synchronized 1030000000 2) = .next t ∧ t.out.symTap ≠ none :=
  ⟨_, rfl, by decide⟩

/-- A row that leaves all three sequence words, and one that moves one. -/
theorem witness_SequenceWordsGuardTheirGroups :
    (∃ t, exec .drop State.reset = .next t ∧ regRead 16 t = regRead 16 State.reset ∧
      regRead 24 t = regRead 24 State.reset ∧ regRead 31 t = regRead 31 State.reset) ∧
    (∃ t, exec .symHigh (receiving 0 0 1 s1Buf) = .next t ∧
      regRead 16 t ≠ regRead 16 (receiving 0 0 1 s1Buf)) :=
  ⟨⟨_, rfl, by decide⟩, ⟨_, rfl, by decide⟩⟩

/-- A row of each port, with the premises of each clause. -/
theorem witness_FrameOfEveryRow :
    (∃ t, exec .symLow (awaiting 16) = .next t ∧ Instr.symLow.port = .sym) ∧
    (∃ t, exec (.rd 3) State.reset = .next t ∧ (Instr.rd 3).port = .host ∧ Instr.rd 3 ≠ .wrCmdRestart ∧
      (∀ e, Instr.rd 3 ≠ .wrStatusAck e) ∧ ∀ d, Instr.rd 3 ≠ .wrCtrl d) ∧
    (∃ t, exec .drop (decoding .synchronized 1030000000 1) = .next t) ∧
    (∃ t, exec (.fe 5) State.reset = .next t ∧ (Instr.fe 5).port = .edge ∧
      State.reset.dec.dstate ≠ .synchronized) :=
  ⟨⟨_, rfl, rfl⟩, ⟨_, rfl, rfl, by decide, by decide, by decide⟩, ⟨_, rfl⟩, ⟨_, rfl, rfl, by decide⟩⟩

/-- S1 complete in the buffer, its closing `High` offered next: the invariant holds, the slots agree, and the step
publishes. -/
def closing : State :=
  offering [.word (.sym 0b01)] (receiving 0 0x60 10 s1Buf)

theorem witness_EveryStepKeepsTheFramerInvariant :
    FramerInv closing ∧ ∃ t, step closing = .next t ∧ t.snap.valid = true :=
  ⟨{ buf_len := by decide
     raw_len := by decide
     raw_tail := reset_framerInv.raw_tail
     awaiting_clean := by decide
     frame_has_bytes := by decide
     counters := ⟨rfl, rfl, rfl, by decide, by decide, by decide⟩ }, _, rfl, by decide⟩

theorem witness_EveryStepKeepsSlotsAgreeing :
    FramerInv closing ∧ SlotsAgree closing ∧ closing.cnt.ok.toNat + 1 < 2 ^ 32 ∧
      closing.cnt.frames.toNat + 1 < 2 ^ 32 ∧ ∃ t, step closing = .next t :=
  ⟨witness_EveryStepKeepsTheFramerInvariant.1, ⟨by decide, by decide⟩, by decide, by decide, _, rfl⟩

/-- An edge offered right after reset. -/
theorem witness_EveryStepKeepsTheBlockInvariant :
    let s := offering [.word (.edge 0x64#66)] State.reset
    BlockInv s ∧ ∃ t, step s = .next t ∧ t.dec.lastTs = 100 :=
  ⟨{ framer := framerInv_congr (s := State.reset) rfl rfl rfl rfl rfl rfl rfl rfl rfl reset_framerInv
     decoder := reset_decoderInv
     receiving_synced := by decide
     unsynced_quiet := by decide
     no_symbols := by decide }, _, rfl, by decide⟩

/-- Three steps from reset: an edge, the wall time, a second edge. -/
theorem witness_SnapshotValidExactlyWhenCounted :
    let l : List Input := [.word (.edge 0x64#66), .wall 7, .word (.edge 0x100000000000000C8#66)]
    3 < 2 ^ 32 ∧
      ∃ t : State, Host.Core.run core 3
        { State.reset with env := { State.reset.env with inputs := l } } = .next t ∧ t.dec.sampleCnt = 1 :=
  ⟨by decide, _, rfl, by decide⟩

end Sys2Proof.Tests
end

/-! Family 10_state: what each register reads of the state (10_state.md R30, R50 to R66; 20_memory.md R82, R84). -/

namespace Sys2Proof.Machine

open Sys2Proof.Safety

/-! ### Register words as numbers -/

/-- Two fields side by side are the number of the low one plus the high one at its weight. -/
theorem toNat_append_eq_add {m n : Nat} (a : BitVec m) (b : BitVec n) :
    (a ++ b).toNat = 2 ^ n * a.toNat + b.toNat := by
  rw [BitVec.toNat_append, ← Nat.shiftLeft_add_eq_or_of_lt b.isLt, Nat.shiftLeft_eq, Nat.mul_comm]

/-- A flag's bit is the flag as a number. -/
theorem toNat_ofBool_eq_bit (b : Bool) : (BitVec.ofBool b).toNat = bit b := by
  cases b <;> rfl

/-- A value read in two words is the low word plus the high word at its weight (20_memory.md R82). -/
theorem lowWord_add_highWord (v : BitVec 64) :
    (lowWord v).toNat + 2 ^ 32 * (highWord v).toNat = v.toNat := by
  rw [(lowWord_highWord v).1, (lowWord_highWord v).2, Nat.mod_add_div]

/-- `IRQ` as the three enabled causes (60_exceptions.md R270). -/
theorem State.irq_iff (s : State) :
    s.irq = true ↔
      (s.flags.rawReady = true ∧ s.ctrl.getLsbD 0 = true) ∨
      (s.flags.snapNew = true ∧ s.ctrl.getLsbD 1 = true) ∨
      ((s.flags.errNew = true ∨ s.flags.inErr = true) ∧ s.ctrl.getLsbD 2 = true) := by
  simp only [State.irq, State.ieRaw, State.ieSnap, State.ieErr, Bool.or_eq_true, Bool.and_eq_true,
    or_assoc]

/-- `STATUS` as the number of its fields (10_state.md R62). -/
theorem State.statusWord_toNat (s : State) :
    s.statusWord.toNat =
      s.dec.dstate.code.toNat + 4 * s.frm.fstate.code.toNat +
      8 * bit s.dec.calValid + 16 * bit s.irq +
      256 * bit s.flags.rawReady + 512 * bit s.flags.rawOverrun + 1024 * bit s.flags.snapNew +
      2048 * bit s.flags.errNew + 4096 * bit s.flags.inErr := by
  rw [State.statusWord, toWord_toNat (by decide)]
  simp only [toNat_append_eq_add, toNat_ofBool_eq_bit, BitVec.toNat_ofNat]
  omega

/-- `FRAMER` as the number of its fields (10_state.md R63). -/
theorem Framer.view_toNat (f : Framer) :
    f.view.toNat =
      f.syncCnt.toNat + 2 ^ 8 * f.bitIndex.val + 2 ^ 16 * f.shift.toNat + 2 ^ 24 * f.bufLen.toNat := by
  have hb := f.bitIndex_lt
  rw [Framer.view_eq]
  simp only [toNat_append_eq_add, BitVec.toNat_ofNat]
  omega

/-- `DECODER` as the number of its fields (10_state.md R64). -/
theorem Decoder.view_toNat (d : Decoder) :
    d.view.toNat = d.last.toNat + 4 * bit d.refValid + 8 * bit d.dcPrevValid := by
  rw [Decoder.view, toWord_toNat (by decide)]
  simp only [toNat_append_eq_add, toNat_ofBool_eq_bit]
  omega

/-- `SNAP_FLAGS` as the number of its fields (10_state.md R53). -/
theorem Snapshot.flagsView_toNat (n : Snapshot) :
    n.flagsView.toNat = bit n.valid + 2 * bit n.out1 + 4 * bit n.out2 := by
  rw [Snapshot.flagsView, toWord_toNat (by decide)]
  simp only [toNat_append_eq_add, toNat_ofBool_eq_bit]
  omega

/-- Two 16-bit fields that fill a register word. -/
theorem toWord_append_toNat (hi lo : BitVec 16) :
    (toWord (hi ++ lo)).toNat = lo.toNat + 2 ^ 16 * hi.toNat := by
  rw [toWord_toNat (by decide), toNat_append_eq_add, Nat.add_comm]

/-- Byte `j` of `RAW_DATAk` (10_state.md R50). -/
theorem rawDataWord_byte (raw : List Byte) (k : Nat) {j : Nat} (hj : j < 4) :
    (rawDataWord raw k).extractLsb' (8 * j) 8 = rawByte raw (4 * k + j) := by
  rw [rawDataWord_eq]
  interval_cases j
  · exact BitVec.extractLsb'_append_eq_right
  · rw [BitVec.extractLsb'_append_eq_of_le (by decide)]
    exact BitVec.extractLsb'_append_eq_right
  · rw [BitVec.extractLsb'_append_eq_of_le (by decide), BitVec.extractLsb'_append_eq_of_le (by decide)]
    exact BitVec.extractLsb'_append_eq_right
  · rw [BitVec.extractLsb'_append_eq_of_le (by decide), BitVec.extractLsb'_append_eq_of_le (by decide)]
    exact BitVec.extractLsb'_append_eq_left

/-- The four `RAW_DATA` registers stand at word numbers 18 to 21 (20_memory.md R84). -/
theorem regRead_rawData (s : State) {k : Nat} (hk : k < 4) :
    regRead (BitVec.ofNat 6 (18 + k)) s = rawDataWord s.rawSlot.raw k := by
  interval_cases k <;> rfl

/-- The offsets past the last counter are reserved (20_memory.md R84; 10_state.md R66). -/
theorem regRead_eq_zero_of_forty_le (s : State) {n : BitVec 6} (hn : 40 ≤ n.toNat) : regRead n s = 0 := by
  obtain ⟨⟨k, hk⟩⟩ := n
  change 40 ≤ k at hn
  interval_cases k <;> rfl

/-! ### The obligations on reads -/

/-- Settles O44: the `STATUS` word is the concatenation of its fields, and `IRQ` the three enabled causes. -/
theorem statusReadsItsFields : Obligations.StatusReadsItsFields := by
  intro s
  refine ⟨s.irq_iff, s.statusWord_toNat.trans ?_⟩
  cases s.dec.dstate <;> cases s.frm.fstate <;> rfl

/-- Settles O45, register by register through the word each offset maps to. -/
theorem stageRegistersReadTheirFields : Obligations.StageRegistersReadTheirFields := fun s =>
  ⟨rfl, toWord_toNat (by decide) s.ctrl, rfl, toWord_toNat (by decide) s.dec.sampleCnt,
    lowWord_add_highWord s.dec.halfT, lowWord_add_highWord s.dec.sens, lowWord_add_highWord s.dec.fullEst,
    s.frm.view_toNat, s.dec.view_toNat⟩

/-- Settles O46: each field of 32 bits is its register, and the narrower ones by their views. -/
theorem slotRegistersReadTheirFields : Obligations.SlotRegistersReadTheirFields := by
  intro s
  refine ⟨toWord_self _, toWord_toNat (by decide) s.rawSlot.rawLen, ?rawData, toWord_self _,
    s.snap.flagsView_toNat, toWord_append_toNat _ _, toWord_append_toNat _ _,
    lowWord_add_highWord s.snap.ts, ?code, toWord_self _, toWord_self _, toWord_self _, toWord_self _,
    toWord_self _, toWord_self _, toWord_self _, toWord_self _, toWord_self _, ?reserved⟩
  case rawData =>
    intro k j hk hj
    rw [regRead_rawData s hk]
    exact rawDataWord_byte _ k hj
  case code =>
    refine (toWord_toNat (by decide) s.res.code.code).trans ?_
    cases s.res.code <;> rfl
  case reserved =>
    rintro n (hn | hn)
    · simp only [List.mem_cons, List.not_mem_nil, or_false] at hn
      obtain rfl | rfl | rfl | rfl | rfl := hn <;> rfl
    · exact regRead_eq_zero_of_forty_le s hn

end Sys2Proof.Machine

/-! Family 10_state: what a row leaves of the flags, the counters, the decoder and the slots
(10_state.md R33, R38 to R42, R56, R57; 70_reset_and_hazards.md R304). -/

namespace Sys2Proof.Machine

open Sys2Proof.Safety

/-! ### What a host row leaves -/

section host
variable {i : Instr} {s t : State} (hp : i.port = .host) (h : exec i s = .next t)
include hp h

/-- A host row writes neither slot, result nor counter (44_host_interface.md R236). -/
theorem exec_host_slots :
    t.rawSlot = s.rawSlot ∧ t.snap = s.snap ∧ t.res = s.res ∧ t.cnt = s.cnt := by
  rcases exec_host_next hp h with ⟨o, rfl⟩ | ⟨d, o, -, rfl⟩ | ⟨e, -, rfl⟩ | ⟨-, rfl⟩ <;> simp

/-- Among the host rows only restart writes the decoder and the framer (44_host_interface.md R237). -/
theorem exec_host_stages (hi : i ≠ .wrCmdRestart) : t.dec = s.dec ∧ t.frm = s.frm := by
  rcases exec_host_next hp h with ⟨o, rfl⟩ | ⟨d, o, -, rfl⟩ | ⟨e, -, rfl⟩ | ⟨hr, -⟩
  · exact ⟨rfl, rfl⟩
  · exact ⟨rfl, rfl⟩
  · simp
  · exact absurd hr hi

/-- Among the host rows only the acknowledgement writes a flag (44_host_interface.md R234). -/
theorem exec_host_flags (hi : ∀ e, i ≠ .wrStatusAck e) : t.flags = s.flags := by
  rcases exec_host_next hp h with ⟨o, rfl⟩ | ⟨d, o, -, rfl⟩ | ⟨e, he, -⟩ | ⟨-, rfl⟩
  · rfl
  · rfl
  · exact absurd he (hi e)
  · simp

end host

/-! ### What an edge-port row leaves -/

/-- Out of `Synchronized` a decoder move emits nothing (41_manchester_decoder.md R131, R136, R140). -/
theorem EdgeMove.silent {i : Instr} {d d' : Decoder} {y : Option Symbol} (hm : EdgeMove i d y d')
    (hd : d.dstate ≠ .synchronized) : y = none := by
  cases hm
  case emitted h => exact absurd h hd
  case violation h => exact absurd h hd
  case dropSynchronized h => exact absurd h hd
  all_goals rfl

/-- A drop marker and the reserved kind emit nothing or `Invalid` (41_manchester_decoder.md R140). -/
theorem EdgeMove.drop_symbol {i : Instr} {d d' : Decoder} {y : Option Symbol} (hm : EdgeMove i d y d')
    (hi : i = .drop ∨ i = .rsvdEdge) : y = none ∨ y = some .invalid := by
  cases hm
  case emitted hy _ _ => rcases hi with rfl | rfl <;> simp at hy
  case violation => exact .inr rfl
  case dropSynchronized => exact .inr rfl
  all_goals exact .inl rfl

/-- A decoder move leaves the last timestamp, or is an accepted edge and notes its time
(41_manchester_decoder.md R130). -/
theorem EdgeMove.lastTs {i : Instr} {d d' : Decoder} {y : Option Symbol} (hm : EdgeMove i d y d') :
    (d'.lastTs = d.lastTs ∧ d'.lastTsValid = d.lastTsValid) ∨
      ∃ ts, (i = .fe ts ∨ i = .re ts) ∧ Accepted ts d ∧ d'.lastTs = ts ∧ d'.lastTsValid = true := by
  cases hm
  case dropDiscovering => exact .inl ⟨rfl, rfl⟩
  case dropSynchronizing => exact .inl ⟨rfl, rfl⟩
  case dropSynchronized => exact .inl ⟨rfl, rfl⟩
  case synced ts hi ha _ _ _ => exact .inr ⟨ts, .inl hi, ha, rfl, rfl⟩
  case emitted ts _ hy ha _ => exact .inr ⟨ts, hy.imp And.right And.right, ha, rfl, rfl⟩
  all_goals exact .inr ⟨_, ‹_›, ‹_›, rfl, rfl⟩

/-- A decoder move leaves the calibration, or completes one (10_state.md R39 to R42). -/
theorem EdgeMove.calibration {i : Instr} {d d' : Decoder} {y : Option Symbol} (hm : EdgeMove i d y d') :
    (d'.halfT = d.halfT ∧ d'.sens = d.sens ∧ d'.fullEst = d.fullEst ∧ d'.calValid = d.calValid) ∨
      (d.dstate = .discoverClock ∧ d'.dstate = .synchronizing ∧ d'.calValid = true) := by
  cases hm
  case calibrated hd _ _ => exact .inr ⟨hd, rfl, rfl⟩
  all_goals exact .inl ⟨rfl, rfl, rfl, rfl⟩

/-- `Invalid` writes framer state alone (42_dlbus_framer.md R171, R172). -/
theorem framer_invalid_frame (s : State) :
    let t := framer Config.dlrx .invalid s
    t.cnt = s.cnt ∧ t.flags = s.flags ∧ t.rawSlot = s.rawSlot ∧ t.snap = s.snap ∧ t.res = s.res := by
  simp [framer_invalid]

/-! ### Sticky flags -/

/-- Every flag set before is set after (10_state.md R33). -/
def FlagsKept (f g : Flags) : Prop :=
  (f.rawReady = true → g.rawReady = true) ∧ (f.rawOverrun = true → g.rawOverrun = true) ∧
  (f.snapNew = true → g.snapNew = true) ∧ (f.errNew = true → g.errNew = true) ∧
  (f.inErr = true → g.inErr = true)

theorem FlagsKept.of_eq {f g : Flags} (h : g = f) : FlagsKept f g := by
  subst h; exact ⟨id, id, id, id, id⟩

theorem FlagsKept.trans {f g k : Flags} (h : FlagsKept f g) (h' : FlagsKept g k) : FlagsKept f k := by
  obtain ⟨a, b, c, d, e⟩ := h
  obtain ⟨a', b', c', d', e'⟩ := h'
  exact ⟨a' ∘ a, b' ∘ b, c' ∘ c, d' ∘ d, e' ∘ e⟩

/-- One symbol clears no flag. -/
theorem framer_flagsKept (y : Symbol) (s : State) : FlagsKept s.flags (framer Config.dlrx y s).flags := by
  rcases framer_outcome y s with ⟨-, h, -⟩ | ⟨-, h, -⟩ | ⟨-, -, ⟨-, -, -, h, -⟩ | ⟨-, -, -, h, -⟩⟩
  · exact .of_eq h
  all_goals rw [h]; simp +contextual [FlagsKept]

theorem framerPart_flagsKept (y : Option Symbol) (s : State) :
    FlagsKept s.flags (framerPart y s).flags := by
  cases y with
  | none => exact .of_eq rfl
  | some y => exact framer_flagsKept y s

/-- The decoder's part of an edge-port row clears no flag. -/
theorem edgeLeaves_flagsKept (y : Option Symbol) (d : Decoder) (b e : Bool) (s : State) :
    FlagsKept s.flags (edgeLeaves y d b e s).flags := by
  simp +contextual [FlagsKept, edgeLeaves]

/-! ### Counters -/

/-- Each counter stays or counts one (10_state.md R57). -/
def CountsAtMostOne (c k : Counters) : Prop :=
  (k.drop = c.drop ∨ k.drop = c.drop + 1) ∧ (k.invalid = c.invalid ∨ k.invalid = c.invalid + 1) ∧
  (k.framing = c.framing ∨ k.framing = c.framing + 1) ∧ (k.frames = c.frames ∨ k.frames = c.frames + 1) ∧
  (k.ok = c.ok ∨ k.ok = c.ok + 1) ∧ (k.size = c.size ∨ k.size = c.size + 1) ∧
  (k.device = c.device ∨ k.device = c.device + 1) ∧ (k.temp = c.temp ∨ k.temp = c.temp + 1)

theorem CountsAtMostOne.of_eq {c k : Counters} (h : k = c) : CountsAtMostOne c k := by
  subst h; simp [CountsAtMostOne]

/-- One symbol counts no drop and no `Invalid`, and every other counter at most once. -/
theorem framer_counts (y : Symbol) (s : State) :
    CountsAtMostOne s.cnt (framer Config.dlrx y s).cnt ∧
      (framer Config.dlrx y s).cnt.drop = s.cnt.drop ∧
      (framer Config.dlrx y s).cnt.invalid = s.cnt.invalid := by
  rcases framer_outcome y s with
    ⟨h, -⟩ | ⟨h, -⟩ | ⟨-, -, ⟨-, -, -, -, h⟩ | ⟨-, -, -, -, h | h | h⟩⟩
  all_goals rw [h]; simp [CountsAtMostOne]

theorem framerPart_counts (y : Option Symbol) (s : State) :
    CountsAtMostOne s.cnt (framerPart y s).cnt ∧
      (framerPart y s).cnt.drop = s.cnt.drop ∧ (framerPart y s).cnt.invalid = s.cnt.invalid := by
  cases y with
  | none => exact ⟨.of_eq rfl, rfl, rfl⟩
  | some y => exact framer_counts y s

/-- The decoder's part of an edge-port row counts only drops and `Invalid`s, which the framer's part leaves:
each counter is written by one part. -/
theorem edgeRow_counts (y : Option Symbol) (d : Decoder) (b e : Bool) (s : State) :
    CountsAtMostOne s.cnt (framerPart y (edgeLeaves y d b e s)).cnt := by
  obtain ⟨⟨-, -, hrest⟩, hdrop, hinvalid⟩ := framerPart_counts y (edgeLeaves y d b e s)
  refine ⟨?_, ?_, hrest⟩
  · rw [hdrop]; cases b <;> simp [edgeLeaves]
  · rw [hinvalid]; by_cases hy : y = some .invalid <;> simp [edgeLeaves, hy]

/-! ### Error events -/

/-- The counters of the five error events (60_exceptions.md R261). -/
def Counters.errors (c : Counters) : List (BitVec 32) :=
  [c.invalid, c.framing, c.size, c.device, c.temp]

/-- A row counts an error event when one of the five counters differs. -/
theorem Counters.errors_ne_iff {c k : Counters} :
    k.errors ≠ c.errors ↔
      k.invalid ≠ c.invalid ∨ k.framing ≠ c.framing ∨ k.size ≠ c.size ∨ k.device ≠ c.device ∨
        k.temp ≠ c.temp := by
  simp only [Counters.errors, ne_eq, List.cons.injEq, and_true, not_and_or]

/-- An error is counted and `ERR_NEW` set, or none is counted and `ERR_NEW` is not set anew. -/
def CountedIffFlagged (s t : State) : Prop :=
  (t.cnt.errors = s.cnt.errors ∧ (t.flags.errNew = true → s.flags.errNew = true)) ∨
  (t.cnt.errors ≠ s.cnt.errors ∧ t.flags.errNew = true)

/-- One symbol counts and flags its framing or parse error. -/
theorem framer_countedIffFlagged (y : Symbol) (s : State) :
    CountedIffFlagged s (framer Config.dlrx y s) := by
  rcases framer_outcome y s with
    ⟨h, hf, -⟩ | ⟨h, hf, -⟩ | ⟨-, -, ⟨-, -, -, hf, h⟩ | ⟨-, -, -, hf, h | h | h⟩⟩
  · exact .inl ⟨by rw [h], by rw [hf]; exact id⟩
  · exact .inr ⟨by rw [h]; simp [Counters.errors], by rw [hf]⟩
  · exact .inl ⟨by rw [h]; rfl, by rw [hf]; exact id⟩
  all_goals exact .inr ⟨by rw [h]; simp [Counters.errors], by rw [hf]⟩

/-- What counts and flags from a state with the errors and the `ERR_NEW` of `s` does so from `s`. -/
theorem CountedIffFlagged.of_start {s u t : State} (h : CountedIffFlagged u t)
    (hc : u.cnt.errors = s.cnt.errors) (hf : u.flags.errNew = s.flags.errNew) : CountedIffFlagged s t := by
  unfold CountedIffFlagged at h ⊢
  rwa [← hc, ← hf]

/-- An edge-port row counts and flags: `Invalid` by the decoder, every other error by the framer, never both. -/
theorem edgeRow_countedIffFlagged (y : Option Symbol) (d : Decoder) (b e : Bool) (s : State) :
    CountedIffFlagged s (framerPart y (edgeLeaves y d b e s)) := by
  match y with
  | none => exact .inl ⟨rfl, id⟩
  | some .low => exact (framer_countedIffFlagged .low _).of_start rfl rfl
  | some .high => exact (framer_countedIffFlagged .high _).of_start rfl rfl
  | some .invalid =>
    obtain ⟨hc, hf, -⟩ := framer_invalid_frame (edgeLeaves (some .invalid) d b e s)
    refine .inr ⟨?_, ?_⟩
    · rw [framerPart, hc]; simp [Counters.errors, edgeLeaves]
    · rw [framerPart, hf]; rfl

/-- Every row counts an error exactly when it sets `ERR_NEW` anew or finds it set (60_exceptions.md R260). -/
theorem exec_countedIffFlagged {i : Instr} {s t : State} (h : exec i s = .next t) :
    CountedIffFlagged s t := by
  rcases port_cases i with hp | hp | hp
  · obtain ⟨y, d, b, e, -, rfl⟩ := exec_edge_next hp h
    exact edgeRow_countedIffFlagged y d b e s
  · obtain ⟨y, -, rfl⟩ := exec_sym_next hp h
    exact (framer_countedIffFlagged y _).of_start rfl rfl
  · obtain ⟨-, -, -, hc⟩ := exec_host_slots hp h
    refine .inl ⟨by rw [hc], ?_⟩
    rcases exec_host_next hp h with ⟨o, rfl⟩ | ⟨d, o, -, rfl⟩ | ⟨e, -, rfl⟩ | ⟨-, rfl⟩
    · exact id
    · exact id
    · simp +contextual [statusWrite]
    · simp

/-! ### The enables -/

/-- No row but the `CTRL` write touches the enables (44_host_interface.md R233). -/
theorem exec_ctrl {i : Instr} {s t : State} (h : exec i s = .next t) (hi : ∀ d, i ≠ .wrCtrl d) :
    t.ctrl = s.ctrl := by
  rcases port_cases i with hp | hp | hp
  · obtain ⟨y, d, b, e, -, rfl⟩ := exec_edge_next hp h
    rw [framerPart_ctrl]
    rfl
  · obtain ⟨y, -, rfl⟩ := exec_sym_next hp h
    simp
  · rcases exec_host_next hp h with ⟨o, rfl⟩ | ⟨d, o, hd, -⟩ | ⟨e, -, rfl⟩ | ⟨-, rfl⟩
    · rfl
    · exact absurd hd (hi d)
    · simp
    · simp

/-! ### The obligations on rows -/

/-- Settles O48: neither part of an edge-port row clears a flag, nor does a symbol, nor a host row but the
acknowledgement. -/
theorem stickyFlagsAreClearedOnlyByAck : Obligations.StickyFlagsAreClearedOnlyByAck := by
  intro s t i h hack
  change FlagsKept s.flags t.flags
  rcases port_cases i with hp | hp | hp
  · obtain ⟨y, d, b, e, -, rfl⟩ := exec_edge_next hp h
    exact (edgeLeaves_flagsKept y d b e s).trans (framerPart_flagsKept y _)
  · obtain ⟨y, -, rfl⟩ := exec_sym_next hp h
    exact framer_flagsKept y (quiet s)
  · exact .of_eq (exec_host_flags hp h hack)

/-- Settles O49, from the dichotomy of every row: an error counted and flagged, or neither. -/
theorem errorEventsAreCountedAndFlagged : Obligations.ErrorEventsAreCountedAndFlagged := by
  intro s t i h
  simp only [← Counters.errors_ne_iff]
  rcases exec_countedIffFlagged h with ⟨hc, hf⟩ | ⟨hc, hf⟩
  · refine ⟨fun hne => absurd hc hne, fun hs => ⟨fun ht => ?_, fun hne => absurd hc hne⟩⟩
    exact absurd (hf ht) (by simp [hs])
  · exact ⟨fun _ => hf, fun _ => ⟨fun _ => hc, fun _ => hf⟩⟩

/-- Settles O50: decoder and framer write different counters, and no host row writes any. -/
theorem countersStayOrCountOne : Obligations.CountersStayOrCountOne := by
  intro s t i h
  change CountsAtMostOne s.cnt t.cnt
  rcases port_cases i with hp | hp | hp
  · obtain ⟨y, d, b, e, -, rfl⟩ := exec_edge_next hp h
    exact edgeRow_counts y d b e s
  · obtain ⟨y, -, rfl⟩ := exec_sym_next hp h
    exact (framer_counts y (quiet s)).1
  · obtain ⟨-, -, -, hc⟩ := exec_host_slots hp h
    exact .of_eq hc

/-- Settles O51: of the decoder moves only accepted edges note a time, and only one calibrates; a symbol leaves
the decoder, and a restart these fields. -/
theorem timestampsAndCalibrationHaveOneWriter : Obligations.TimestampsAndCalibrationHaveOneWriter := by
  intro s t i h
  rcases port_cases i with hp | hp | hp
  · obtain ⟨y, d, b, e, hm, rfl⟩ := exec_edge_next hp h
    rw [framerPart_dec]
    exact ⟨hm.lastTs, hm.calibration⟩
  · obtain ⟨y, -, rfl⟩ := exec_sym_next hp h
    simp
  · rcases exec_host_next hp h with ⟨o, rfl⟩ | ⟨d, o, -, rfl⟩ | ⟨e, -, rfl⟩ | ⟨-, rfl⟩ <;> simp

/-- Settles O55, port by port: a drop marker hands the framer `Invalid` at most, and a decoder out of
`Synchronized` hands it nothing. -/
theorem frameOfEveryRow : Obligations.FrameOfEveryRow := by
  intro s t i h
  refine ⟨exec_env h, exec_ctrl h, fun hp => ?sym, fun hp => ?host, fun hi => ?drop, fun hp hd => ?unsynced⟩
  case sym =>
    obtain ⟨y, -, rfl⟩ := exec_sym_next hp h
    simp
  case host =>
    obtain ⟨hraw, hsnap, hres, hcnt⟩ := exec_host_slots hp h
    exact ⟨hraw, hsnap, hres, hcnt, exec_host_stages hp h, exec_host_flags hp h⟩
  case drop =>
    have hp : i.port = .edge := by rcases hi with rfl | rfl <;> rfl
    obtain ⟨y, d, b, e, hm, rfl⟩ := exec_edge_next hp h
    rcases hm.drop_symbol hi with rfl | rfl
    · exact ⟨rfl, rfl, rfl⟩
    · exact (framer_invalid_frame (edgeLeaves (some .invalid) d b e s)).2.2
  case unsynced =>
    obtain ⟨y, d, b, e, hm, rfl⟩ := exec_edge_next hp h
    obtain rfl := hm.silent hd
    exact ⟨rfl, rfl, rfl, rfl⟩

end Sys2Proof.Machine

/-! Family 20_memory: the bits of a word that reach the instruction, the step at an offered word, and host
accesses performed again (20_memory.md R85, R86, R88; 30_encoding.md R101, R105, R106). -/

namespace Sys2Proof

/-! ### The bits a word is decoded from -/

/-- The high bit of `EDGE_KIND` is bit 65 of the word (30_encoding.md R100). -/
theorem kind_getLsbD_one (w : BitVec 66) : (w.extractLsb' 64 2).getLsbD 1 = w.getLsbD 65 := by
  simp

/-- An edge word with bit 65 set is no edge: its kind is `DROP` or the reserved one (30_encoding.md R100). -/
theorem decodeEdge_of_bit65 {w : BitVec 66} (h : w.getLsbD 65 = true) :
    decodeEdge w = if w.extractLsb' 64 2 = 2#2 then .drop else .rsvdEdge := by
  have hkind : (w.extractLsb' 64 2).getLsbD 1 = true := (kind_getLsbD_one w).trans h
  have hfe : w.extractLsb' 64 2 ≠ 0#2 := fun h0 => by simp [h0] at hkind
  have hre : w.extractLsb' 64 2 ≠ 1#2 := fun h1 => by simp [h1] at hkind
  rw [decodeEdge_eq, if_neg hfe, if_neg hre]

/-- A host word with `HOST_WE` clear is decoded from its word number alone (30_encoding.md R106). -/
theorem decodeHost_of_read {w : BitVec 41} (h : w.getLsbD 40 = false) :
    decodeHost w = .rd (w.extractLsb' 34 6) := by
  rw [decodeHost_eq, h, if_neg Bool.false_ne_true]

/-- A host word with `HOST_WE` set is decoded by its word number, from the bits that register takes
(30_encoding.md R105). -/
theorem decodeHost_of_write {w : BitVec 41} (h : w.getLsbD 40 = true) :
    decodeHost w =
      if w.extractLsb' 34 6 = 1#6 then .wrCtrl (w.extractLsb' 0 3)
      else if w.extractLsb' 34 6 = 2#6 then (if w.getLsbD 0 then .wrCmdRestart else .wrCmdNop)
      else if w.extractLsb' 34 6 = 3#6 then .wrStatusAck (w.extractLsb' 8 5)
      else .wrOther (w.extractLsb' 34 6) := by
  rw [decodeHost_eq, if_pos h]

/-- Settles O4: an edge word that is no edge is decoded from its kind, a read from its word number, and a write
from the bits its register takes. -/
theorem ignoredBitsDoNotReachTheInstruction : Obligations.IgnoredBitsDoNotReachTheInstruction := by
  refine ⟨fun w v hw hkind => ?edge, fun w v hwe haddr hdata => ?host⟩
  case edge =>
    have hv : v.getLsbD 65 = true := by rw [← kind_getLsbD_one, hkind, kind_getLsbD_one, hw]
    simp only [decode, decodeEdge_of_bit65 hw, decodeEdge_of_bit65 hv, hkind]
  case host =>
    change decodeHost v = decodeHost w
    cases hw : w.getLsbD 40 with
    | false => rw [decodeHost_of_read hw, decodeHost_of_read (hwe.trans hw), haddr]
    | true =>
      obtain ⟨hctrl, hcmd, hstatus⟩ := hdata hw
      rw [decodeHost_of_write hw, decodeHost_of_write (hwe.trans hw), haddr]
      split_ifs with h1 h2 hv0 hw0 hw0 h3
      · rw [hctrl h1]
      · rfl
      · exact absurd ((hcmd h2).symm.trans hv0) hw0
      · exact absurd ((hcmd h2).trans hw0) hv0
      · rfl
      · rw [hstatus h3]
      · rfl

end Sys2Proof

namespace Sys2Proof.Machine

/-! ### The step at an offered word -/

/-- Out of reset, a word that heads the schedule is what the step finds (20_memory.md R88). -/
theorem fetch_word {s : State} {w : PortWord} {rest : List Input} (hr : s.env.rstN = true)
    (hi : s.env.inputs = .word w :: rest) : fetch s = .offered w (withInputs rest s) := by
  simp [fetch, hr, hi]

/-- A step at an offered word performs what the decoder reads from it (00_scope.md R5). -/
theorem step_of_offered {s u : State} {w : PortWord} (h : fetch s = .offered w u) :
    step s = exec (decode w) u := by
  simp [step, h]

/-- Settles O6: the word is what the step finds, with the rest of the schedule left. -/
theorem stepPerformsTheDecodedWord : Obligations.StepPerformsTheDecodedWord := by
  rintro s w rest i hr hi rfl -
  exact step_of_offered (fetch_word hr hi)

/-! ### Host accesses performed again -/

/-- No register shows an output port (20_memory.md R84). -/
theorem regRead_with_out (n : BitVec 6) (s : State) (o : Outputs) :
    regRead n { s with out := o } = regRead n s := rfl

/-- Settles O39: a read writes the outputs alone, and no register shows these. -/
theorem readChangesNoState : Obligations.ReadChangesNoState := by
  refine fun s a => ⟨exec_rd a s, fun t b h => ?_⟩
  obtain rfl : hostRead a s = t := Host.Outcome.next.inj h
  exact regRead_with_out b s _

/-- A read leaves its register as it was, so the second shows the same word (20_memory.md R86). -/
theorem hostRead_hostRead (a : BitVec 6) (s : State) : hostRead a (hostRead a s) = hostRead a s := by
  simp only [hostRead, regRead_with_out]

/-- A flag acknowledged is clear, and acknowledging it again leaves it so (44_host_interface.md R234). -/
theorem statusWrite_statusWrite (e : BitVec 5) (s : State) :
    statusWrite e (statusWrite e s) = statusWrite e s := by
  simp only [statusWrite, Bool.and_assoc, Bool.and_self]

/-- A row whose effect is idempotent, performed again where it went, stays there. -/
theorem exec_again {i : Instr} {f : State → State} (hexec : ∀ s, exec i s = .next (f s))
    (hf : ∀ s, f (f s) = f s) {s t : State} (h : exec i s = .next t) : exec i t = .next t := by
  obtain rfl : f s = t := Host.Outcome.next.inj ((hexec s).symm.trans h)
  rw [hexec, hf]

/-- Settles O43, host row by host row: each row's effect is idempotent. -/
theorem hostAccessesAreIdempotent : Obligations.HostAccessesAreIdempotent := by
  intro s t i hp h
  cases i <;> simp only [Instr.port, reduceCtorEq] at hp
  case rd a => exact exec_again (exec_rd a) (hostRead_hostRead a) h
  case wrCtrl d => exact exec_again (exec_wrCtrl d) (fun _ => rfl) h
  case wrCmdRestart => exact exec_again exec_wrCmdRestart (fun _ => rfl) h
  case wrCmdNop => exact exec_again exec_wrCmdNop (fun _ => rfl) h
  case wrStatusAck e =>
    exact exec_again (exec_wrStatusAck e) (fun s => statusWrite_statusWrite e (beginHost s)) h
  case wrOther a => exact exec_again (exec_wrOther a) (fun _ => rfl) h

end Sys2Proof.Machine

/-! Family 30_encoding: the round trips between words and instructions (30_encoding.md R100, R105, R114, R116). -/

namespace Sys2Proof

/-! ### The round trips -/

/-- The terms of `WR.OTHER` that stand for a word (opcode_table.json WR.OTHER). -/
theorem wrOther_wellFormed_iff (a : BitVec 6) :
    (Instr.wrOther a).wellFormed = true ↔ a ≠ 1#6 ∧ a ≠ 2#6 ∧ a ≠ 3#6 := by
  simp [Instr.wellFormed, and_assoc]

/-- An edge word decoded and encoded keeps its kind, and its time where bit 65 says that the kind is an edge
(30_encoding.md R100, R101). -/
theorem encode_decodeEdge_append (k : BitVec 2) (ts : Tick) :
    encode (decodeEdge (k ++ ts)) = .edge (k ++ if k.getLsbD 1 then 0#64 else ts) := by
  have hk : ∀ k : BitVec 2, k = 0#2 ∨ k = 1#2 ∨ k = 2#2 ∨ k = 3#2 := by decide
  rw [decodeEdge_append]
  obtain rfl | rfl | rfl | rfl := hk k <;> rfl

/-- Settles O1, row by row: each row's word has the row's fields, and the decoder picks the row by them. -/
theorem decodeOfEncodeIsTheInstruction : Obligations.DecodeOfEncodeIsTheInstruction := by
  intro i hwf
  cases i
  case fe ts => exact decodeEdge_append 0#2 ts
  case re ts => exact decodeEdge_append 1#2 ts
  case drop => exact decodeEdge_append 2#2 0#64
  case rsvdEdge => exact decodeEdge_append 3#2 0#64
  case symLow => rfl
  case symHigh => rfl
  case symInvalid => rfl
  case symRsvd => rfl
  case rd a =>
    obtain ⟨hwe, ha⟩ := rdWord_fields a
    exact (decodeHost_of_read hwe).trans (congrArg Instr.rd ha)
  case wrCtrl d =>
    obtain ⟨hwe, ha, hd⟩ := wrCtrlWord_fields d
    refine (decodeHost_of_write hwe).trans ?_
    rw [ha, hd]; rfl
  case wrCmdRestart => rfl
  case wrCmdNop => rfl
  case wrStatusAck e =>
    obtain ⟨hwe, ha, he⟩ := wrStatusAckWord_fields e
    refine (decodeHost_of_write hwe).trans ?_
    rw [ha, he]; rfl
  case wrOther a =>
    obtain ⟨hwe, ha⟩ := wrOtherWord_fields a
    obtain ⟨h1, h2, h3⟩ := (wrOther_wellFormed_iff a).mp hwf
    refine (decodeHost_of_write hwe).trans ?_
    rw [ha, if_neg h1, if_neg h2, if_neg h3]

/-- The word of `WR.CMD`, bit 0 as given (30_encoding.md R105). -/
theorem wrCmdWord_fields : ∀ b : Bool,
    (1#1 ++ 2#6 ++ 0#33 ++ BitVec.ofBool b : BitVec 41).getLsbD 40 = true ∧
    (1#1 ++ 2#6 ++ 0#33 ++ BitVec.ofBool b : BitVec 41).extractLsb' 34 6 = 2 ∧
    (1#1 ++ 2#6 ++ 0#33 ++ BitVec.ofBool b : BitVec 41).getLsbD 0 = b := by decide

/-- The two rows of `WR.CMD` are one word but for bit 0 (44_host_interface.md R235). -/
theorem encode_wrCmd (b : Bool) :
    encode (if b then .wrCmdRestart else .wrCmdNop) = .host (1#1 ++ 2#6 ++ 0#33 ++ BitVec.ofBool b) := by
  cases b <;> rfl

/-- Settles O2: an edge word by its kind, a symbol code by value, a read by its word number, and a write by the
register it is to. -/
theorem encodeOfDecodeKeepsTheReadBits : Obligations.EncodeOfDecodeKeepsTheReadBits := by
  refine ⟨fun w => ?edge, by decide, fun w => ?host⟩
  case edge =>
    obtain ⟨k, ts, rfl⟩ : ∃ (k : BitVec 2) (ts : Tick), w = k ++ ts := ⟨_, _, edgeWord_eq w⟩
    refine ⟨_, encode_decodeEdge_append k ts, ?_, fun h => ?_⟩
    · rw [kind_of_edgeWord, kind_of_edgeWord]
    · rw [getLsbD_edgeWord] at h
      rw [if_neg (by simpa using h)]
  case host =>
    change ∃ v, encode (decodeHost w) = _ ∧ _
    cases hw : w.getLsbD 40 with
    | false =>
      obtain ⟨hwe, ha⟩ := rdWord_fields (w.extractLsb' 34 6)
      rw [decodeHost_of_read hw]
      exact ⟨_, rfl, hwe, ha, nofun⟩
    | true =>
      rw [decodeHost_of_write hw]
      by_cases h1 : w.extractLsb' 34 6 = 1#6
      · obtain ⟨hwe, ha, hd⟩ := wrCtrlWord_fields (w.extractLsb' 0 3)
        rw [if_pos h1]
        exact ⟨_, rfl, hwe, ha.trans h1.symm, fun _ => ⟨fun _ => hd, by simp [h1], by simp [h1]⟩⟩
      by_cases h2 : w.extractLsb' 34 6 = 2#6
      · obtain ⟨hwe, ha, hd⟩ := wrCmdWord_fields (w.getLsbD 0)
        rw [if_neg h1, if_pos h2]
        exact ⟨_, encode_wrCmd _, hwe, ha.trans h2.symm, fun _ => ⟨by simp [h2], fun _ => hd, by simp [h2]⟩⟩
      by_cases h3 : w.extractLsb' 34 6 = 3#6
      · obtain ⟨hwe, ha, he⟩ := wrStatusAckWord_fields (w.extractLsb' 8 5)
        rw [if_neg h1, if_neg h2, if_pos h3]
        exact ⟨_, rfl, hwe, ha.trans h3.symm, fun _ => ⟨by simp [h3], by simp [h3], fun _ => he⟩⟩
      · obtain ⟨hwe, ha⟩ := wrOtherWord_fields (w.extractLsb' 34 6)
        rw [if_neg h1, if_neg h2, if_neg h3]
        exact ⟨_, rfl, hwe, ha, fun _ => ⟨(absurd · h1), (absurd · h2), (absurd · h3)⟩⟩

/-- Settles O3, port by port: only a host write to no word of the three can be ill-formed, and that is what
`WR.OTHER` is decoded from. -/
theorem everyWordIsARowOfItsFormat : Obligations.EveryWordIsARowOfItsFormat := by
  intro w
  cases w with
  | edge w =>
    change (decodeEdge w).wellFormed = true ∧ (decodeEdge w).port = .edge
    rw [decodeEdge_eq]
    split_ifs <;> exact ⟨rfl, rfl⟩
  | host w =>
    change (decodeHost w).wellFormed = true ∧ (decodeHost w).port = .host
    rw [decodeHost_eq]
    split_ifs with _ h1 h2 _ h3
    · exact ⟨rfl, rfl⟩
    · exact ⟨rfl, rfl⟩
    · exact ⟨rfl, rfl⟩
    · exact ⟨rfl, rfl⟩
    · exact ⟨(wrOther_wellFormed_iff _).mpr ⟨h1, h2, h3⟩, rfl⟩
    · exact ⟨rfl, rfl⟩
  | sym c =>
    change (decodeSym c).wellFormed = true ∧ (decodeSym c).port = .sym
    unfold decodeSym
    split_ifs <;> exact ⟨rfl, rfl⟩

/-- Settles O5: the eleven words, each evaluated. -/
theorem wordsOfTheTestVectorsDecode : Obligations.WordsOfTheTestVectorsDecode :=
  ⟨rfl, rfl, rfl, rfl, rfl, rfl, rfl, rfl, rfl, rfl, rfl⟩

end Sys2Proof

/-! Family 30_encoding: what a row shows on the tap and the strobes (30_encoding.md R100, R103, R104). -/

namespace Sys2Proof.Machine

open Sys2Proof.Safety

/-! ### What a row shows at the ports -/

/-- What an edge-port row shows: the transfer, and the symbol its decoder move emits (30_encoding.md R100, R103). -/
theorem exec_edge_out {i : Instr} {s t : State} (hp : i.port = .edge) (h : exec i s = .next t) :
    ∃ y d, EdgeMove i s.dec y d ∧ t.out = edgeOutputs (y.map Symbol.code) := by
  obtain ⟨y, d, b, e, hm, rfl⟩ := exec_edge_next hp h
  exact ⟨y, d, hm, framerPart_out y _⟩

/-- A symbol row shows nothing (30_encoding.md R104; log entry 8). -/
theorem exec_sym_out {i : Instr} {s t : State} (hp : i.port = .sym) (h : exec i s = .next t) :
    t.out = Outputs.silent := by
  obtain ⟨y, -, rfl⟩ := exec_sym_next hp h
  rw [framer_out, quiet_out]

/-- A host row shows the access and no symbol (20_memory.md R80). -/
theorem exec_host_out {i : Instr} {s t : State} (hp : i.port = .host) (h : exec i s = .next t) :
    ∃ w, t.out = hostOutputs w := by
  cases i <;> simp only [Instr.port, reduceCtorEq] at hp <;> obtain rfl := Host.Outcome.next.inj h
  case rd a => exact ⟨some (regRead a s), rfl⟩
  all_goals exact ⟨none, rfl⟩

/-- No symbol has the code 11 (30_encoding.md R102, R104). -/
theorem Symbol.code_ne_reserved (y : Symbol) : y.code ≠ 0b11 := by
  cases y <;> decide

/-- Settles O53, port by port: what a row shows, and that a decoder out of `Synchronized` emits nothing. -/
theorem onlySynchronizedEmits : Obligations.OnlySynchronizedEmits := by
  intro s t i h
  rcases port_cases i with hp | hp | hp
  · obtain ⟨y, d, hm, ho⟩ := exec_edge_out hp h
    rw [ho, hp]
    refine ⟨fun htap => ⟨rfl, ?_⟩, rfl, rfl⟩
    by_contra hd
    exact htap (by rw [hm.silent hd]; rfl)
  · rw [exec_sym_out hp h, hp]
    exact ⟨fun htap => absurd rfl htap, rfl, rfl⟩
  · obtain ⟨w, ho⟩ := exec_host_out hp h
    rw [ho, hp]
    exact ⟨fun htap => absurd rfl htap, rfl, rfl⟩

/-- Settles O24: only edge-port rows pulse the tap, and with the code of one of the three symbols. -/
theorem reservedSymbolIsRefused : Obligations.ReservedSymbolIsRefused := by
  refine ⟨exec_symRsvd, fun s t i h => ?_⟩
  rcases port_cases i with hp | hp | hp
  · obtain ⟨y, d, -, ho⟩ := exec_edge_out hp h
    rw [ho]
    cases y with
    | none => exact nofun
    | some y => exact fun hy => y.code_ne_reserved (Option.some.inj hy)
  · rw [exec_sym_out hp h]; exact nofun
  · obtain ⟨w, ho⟩ := exec_host_out hp h
    rw [ho]; exact nofun

end Sys2Proof.Machine

/-! Family 30_encoding: the edges of a Manchester waveform through the decoder, and those of a good frame to the
snapshot (30_encoding.md R109, R110, R118, R119; 41_manchester_decoder.md R137, R138; 42_dlbus_framer.md R177). -/

namespace Sys2Proof.Machine

open Sys2Proof.Safety

/-! ### Rows performed one after the other -/

/-- The rows `is` all complete from `s`, put `codes` on the tap in order, and end in `t`. -/
def Performs (is : List Instr) (codes : List (BitVec 2)) (s t : State) : Prop :=
  (statesOf is s).length = is.length ∧
    (statesOf is s).filterMap (fun u => u.out.symTap) = codes ∧ (statesOf is s).getLastD s = t

theorem performs_nil (s : State) : Performs [] [] s s := ⟨rfl, rfl, rfl⟩

/-- A row with a next state, then the rest. -/
theorem performs_cons {i : Instr} {is : List Instr} {codes : List (BitVec 2)} {s u t : State}
    (h : exec i s = .next u) (hr : Performs is codes u t) :
    Performs (i :: is) (u.out.symTap.toList ++ codes) s t := by
  obtain ⟨hlen, htap, hlast⟩ := hr
  have hs : statesOf (i :: is) s = u :: statesOf is u := by rw [statesOf, h]
  refine ⟨?_, ?_, ?_⟩
  · rw [hs, List.length_cons, List.length_cons, hlen]
  · rw [hs, List.filterMap_cons, htap]
    cases u.out.symTap <;> rfl
  · rw [hs, List.getLastD_cons, hlast]

/-! ### The decoder on a valid waveform -/

/-- A synchronised decoder with the estimates of a clock of half-bit T (41_manchester_decoder.md R134). -/
structure Clocked (T : Nat) (d : Decoder) : Prop where
  synced : d.dstate = .synchronized
  half : d.halfT.toNat = T
  sens : d.sens.toNat = 6 * T / 10

/-- Between two bits, the next one to begin at `t0`: the last edge was mid-bit, and the reference is the start of
that bit (41_manchester_decoder.md R137). -/
structure BetweenBits (T t0 : Nat) (d : Decoder) : Prop where
  clocked : Clocked T d
  last_ne : d.last ≠ 2
  ref : d.ref.toInt = (t0 : Int) - 2 * T
  past : d.lastTs.toNat < t0

/-- The next edge is the mid-bit edge of the bit that begins at `t0`: a boundary edge came at `t0`, or none did
(41_manchester_decoder.md R137). -/
structure BeforeMidBit (T t0 : Nat) (d : Decoder) : Prop where
  clocked : Clocked T d
  place : d.last = 2 ∧ d.ref.toInt = t0 ∨ d.last ≠ 2 ∧ d.ref.toInt = (t0 : Int) - 2 * T
  past : d.lastTs.toNat ≤ t0

theorem BetweenBits.beforeMidBit {T t0 : Nat} {d : Decoder} (h : BetweenBits T t0 d) :
    BeforeMidBit T t0 d :=
  ⟨h.clocked, .inr ⟨h.last_ne, h.ref⟩, h.past.le⟩

/-- With HALF_T at least 2, an edge `n` half-bits after the reference is of class `n`
(41_manchester_decoder.md R135). -/
theorem Clocked.edgeClass_eq {T : Nat} {d : Decoder} (h : Clocked T d) (hT : 2 ≤ T) {ts : Tick} {n : Int}
    (he : elapsed ts d.ref = n * T) : edgeClass ts d = n := by
  have hpos : 1 ≤ 6 * T / 10 := by omega
  have hlt : 6 * T / 10 < T := by omega
  rw [edgeClass, intervalClass_eq, he, h.half, h.sens]
  generalize 6 * T / 10 = S at hpos hlt
  have hq : (n * T - S) / (T : Int) = n - 1 := by
    rw [Int.ediv_eq_iff_of_pos (by omega)]
    constructor <;> linarith
  rw [hq, sub_add_cancel]

/-- An accepted edge in `Synchronized` notes its time and hands on what `SyncedEdge` returns
(41_manchester_decoder.md R130). -/
theorem exec_edgeInstr_of_synced {pol : Polarity} {t : Nat} {s u : State} {y : Option Symbol}
    (ha : Accepted (BitVec.ofNat 64 t) s.dec) (hd : s.dec.dstate = .synchronized)
    (h : syncedEdge Config.dlrx (BitVec.ofNat 64 t) pol (beginEdge s) = (u, y)) :
    exec (edgeInstr (pol, t)) s =
      .next (y.elim (noteTime (BitVec.ofNat 64 t) u)
        fun y => emit Config.dlrx y (noteTime (BitVec.ofNat 64 t) u)) := by
  have hexec : exec (edgeInstr (pol, t)) s =
      .next (edge Config.dlrx pol (BitVec.ofNat 64 t) (beginEdge s)) := by cases pol <;> rfl
  rcases edge_cases pol (BitVec.ofNat 64 t) (beginEdge s) with
    ⟨hn, -⟩ | ⟨-, hd', -⟩ | ⟨-, hd', -⟩ | ⟨-, -, e⟩
  · exact absurd ha hn
  · simp [hd] at hd'
  · simp [hd] at hd'
  · rw [hexec, e, h]
    cases y <;> rfl

section edges
variable {T t0 : Nat} {s : State} (hT : 2 ≤ T)
include hT

/-- A boundary edge is accepted at interval 2 and emits nothing (41_manchester_decoder.md R137). -/
theorem exec_boundaryEdge (pol : Polarity) (h : BetweenBits T t0 s.dec) (ht : t0 < 2 ^ 64) :
    ∃ d, exec (edgeInstr (pol, t0)) s = .next { s with dec := d, out := edgeOutputs none } ∧
      BeforeMidBit T t0 d := by
  have hts : (BitVec.ofNat 64 t0).toNat = t0 :=
    (BitVec.toNat_ofNat _ 64).trans (Nat.mod_eq_of_lt ht)
  have hclass : edgeClass (BitVec.ofNat 64 t0) s.dec = 2 :=
    h.clocked.edgeClass_eq hT (by rw [elapsed, hts, h.ref]; ring)
  have hacc : Accepted (BitVec.ofNat 64 t0) s.dec := fun _ => by rw [hts]; exact h.past
  rcases syncedEdge_cases (BitVec.ofNat 64 t0) pol (beginEdge s) with ⟨-, -, e⟩ | ⟨hc, -⟩ | ⟨hc, -⟩
  · rw [exec_edgeInstr_of_synced hacc h.clocked.synced e]
    refine ⟨_, rfl, ⟨h.clocked.synced, h.clocked.half, h.clocked.sens⟩, .inl ⟨rfl, ?_⟩, hts.le⟩
    exact (refAt_toInt _).trans (congrArg Nat.cast hts)
  · rw [beginEdge_dec, hclass] at hc
    omega
  · rw [beginEdge_dec, hclass, Bool.eq_false_iff, ne_eq, accepts_iff] at hc
    exact absurd (.inr ⟨.inl rfl, h.last_ne⟩) hc

/-- A mid-bit edge is accepted, at interval 1 after a boundary edge and else 3, and emits its bit
(41_manchester_decoder.md R137, R138). -/
theorem exec_midBitEdge (pol : Polarity) (h : BeforeMidBit T t0 s.dec) (ht : t0 + T < 2 ^ 64) :
    ∃ d, exec (edgeInstr (pol, t0 + T)) s =
        .next
          { framer Config.dlrx pol.symbol s with
            dec := d, out := edgeOutputs (some pol.symbol.code) } ∧
      BetweenBits T (t0 + 2 * T) d := by
  have hts : (BitVec.ofNat 64 (t0 + T)).toNat = t0 + T :=
    (BitVec.toNat_ofNat _ 64).trans (Nat.mod_eq_of_lt ht)
  have hacc : Accepted (BitVec.ofNat 64 (t0 + T)) s.dec := fun _ => by
    have := h.past
    omega
  have hclass : edgeClass (BitVec.ofNat 64 (t0 + T)) s.dec = 1 ∧ s.dec.last = 2 ∨
      edgeClass (BitVec.ofNat 64 (t0 + T)) s.dec = 3 ∧ s.dec.last ≠ 2 := by
    refine h.place.imp (fun ⟨hl, hr⟩ => ⟨?_, hl⟩) (fun ⟨hl, hr⟩ => ⟨?_, hl⟩)
    all_goals
      refine h.clocked.edgeClass_eq hT ?_
      rw [elapsed, hts, hr]
      push_cast
      ring
  rcases syncedEdge_cases (BitVec.ofNat 64 (t0 + T)) pol (beginEdge s) with ⟨hc, hl, -⟩ | ⟨-, e⟩ | ⟨hc, -⟩
  · rw [beginEdge_dec] at hc hl
    omega
  · rw [exec_edgeInstr_of_synced hacc h.clocked.synced e]
    refine ⟨_, congrArg _ (framer_with pol.symbol s _ _), ?_⟩
    refine ⟨⟨h.clocked.synced, h.clocked.half, h.clocked.sens⟩, ?_, ?_, ?_⟩
    · rcases hclass with ⟨hc, -⟩ | ⟨hc, -⟩
      all_goals
        change BitVec.ofInt 2 (edgeClass _ s.dec) ≠ 2
        rw [hc]
        decide
    · refine (refBefore_toInt _ _).trans ?_
      rw [hts, show (beginEdge s).dec.halfT.toNat = T from h.clocked.half]
      push_cast
      ring
    · change (BitVec.ofNat 64 (t0 + T)).toNat < _
      omega
  · rw [beginEdge_dec, Bool.eq_false_iff, ne_eq, accepts_iff] at hc
    exact absurd (hclass.imp id fun h => ⟨.inr h.1, h.2⟩) hc

/-- The edge, if any, at a bit's start, whatever rows follow: the mid-bit edge is next. -/
theorem bitStart_performs (level b : Bool) (h : BetweenBits T t0 s.dec) (ht : t0 < 2 ^ 64) :
    ∃ d o, BeforeMidBit T t0 d ∧
      ∀ is codes t, Performs is codes { s with dec := d, out := o } t →
        Performs
          ((if level = b then [] else [(if b then .rising else .falling, t0)]).map edgeInstr ++ is)
          codes s t := by
  by_cases hl : level = b
  · exact ⟨s.dec, s.out, h.beforeMidBit, fun is codes t hr => by rwa [if_pos hl]⟩
  · obtain ⟨d, hexec, hd⟩ := exec_boundaryEdge hT (if b then .rising else .falling) h ht
    refine ⟨d, edgeOutputs none, hd, fun is codes t hr => ?_⟩
    rw [if_neg hl]
    exact performs_cons hexec hr

/-- The edges of a bit, whatever rows follow, put it on the tap and hand it to the framer. -/
theorem bit_performs (level b : Bool) (h : BetweenBits T t0 s.dec) (ht : t0 + T < 2 ^ 64) :
    ∃ d o, BetweenBits T (t0 + 2 * T) d ∧
      ∀ bs codes t,
        Performs ((manchesterEdges T (t0 + 2 * T) (!b) bs).map edgeInstr) codes
          { framer Config.dlrx (bitSymbol b) s with dec := d, out := o } t →
        Performs ((manchesterEdges T t0 level (b :: bs)).map edgeInstr)
          ((if b then 0b01 else 0b00) :: codes) s t := by
  obtain ⟨d, o, hd, hstart⟩ := bitStart_performs hT level b h (by omega)
  obtain ⟨d', hexec, hd'⟩ :=
    exec_midBitEdge hT (if b then .falling else .rising) (s := { s with dec := d, out := o }) hd ht
  have hsym : (if b then Polarity.falling else .rising).symbol = bitSymbol b := by cases b <;> rfl
  have hcode : (bitSymbol b).code = if b then 0b01 else 0b00 := by cases b <;> rfl
  rw [hsym, framer_with] at hexec
  refine ⟨d', edgeOutputs (some (bitSymbol b).code), hd', fun bs codes t hr => ?_⟩
  rw [manchesterEdges, List.map_append, List.map_cons, ← hcode]
  exact hstart _ _ _ (performs_cons hexec hr)

/-- The edges of a waveform put exactly its bits on the tap and hand them to the framer, in order. -/
theorem waveform_performs (bits : List Bool) (level : Bool) (h : BetweenBits T t0 s.dec)
    (ht : t0 + 2 * T * bits.length < 2 ^ 64) :
    ∃ d o, BetweenBits T (t0 + 2 * T * bits.length) d ∧
      Performs ((manchesterEdges T t0 level bits).map edgeInstr)
        (bits.map fun b => if b then 0b01 else 0b00) s
        { runFramer (bits.map bitSymbol) s with dec := d, out := o } := by
  induction bits generalizing t0 level s with
  | nil => exact ⟨s.dec, s.out, h, performs_nil s⟩
  | cons b bs ih =>
    have hlen : t0 + 2 * T * (b :: bs).length = t0 + 2 * T + 2 * T * bs.length := by
      rw [List.length_cons]; ring
    rw [hlen] at ht ⊢
    obtain ⟨d, o, hd, hbit⟩ := bit_performs hT level b h (by omega)
    obtain ⟨d', o', hd', hrest⟩ :=
      ih (s := { framer Config.dlrx (bitSymbol b) s with dec := d, out := o }) (!b) hd ht
    rw [runFramer_with] at hrest
    exact ⟨d', o', hd', hbit _ _ _ hrest⟩

end edges

/-- Settles O22: the run of a waveform, from between two bits. -/
theorem everyValidWaveformIsDecoded : Obligations.EveryValidWaveformIsDecoded := by
  intro s t0 level bits hsync hlast hsens hT href hpast ht
  have h : BetweenBits s.dec.halfT.toNat t0 s.dec := ⟨⟨hsync, rfl, hsens⟩, hlast, href, hpast⟩
  obtain ⟨d, o, hd, hlen, htap, hend⟩ := waveform_performs hT bits level h ht
  intro run t f
  have ht : t = { f with dec := d, out := o } := hend
  rw [ht]
  refine ⟨hlen.trans (List.length_map _), htap, hd.clocked.synced, ?_, rfl, rfl, rfl, rfl, rfl, rfl⟩
  refine hd.ref.trans ?_
  push_cast
  ring

/-! ### A good frame to the snapshot -/

/-- A temperature is read from bytes 1 to 8 alone (43_uvr42_parser.md R203). -/
theorem tenths_congr {raw bytes : List Byte} (h : ∀ j < 10, raw.getD j 0#8 = bytes.getD j 0#8) {i : Nat}
    (hi : i ∈ [1, 2, 3, 4]) : tenths raw i = tenths bytes i := by
  have hi : i ≤ 4 := by revert i; decide
  rw [tenths, tenths, h _ (by omega), h _ (by omega)]

/-- A ten-byte frame of device 0x10 in range is `OK` (43_uvr42_parser.md R200 to R206). -/
theorem parseCode_of_goodFrame {slot : RawSlot} {bytes : List Byte} (hlen : slot.rawLen = 10)
    (hraw : ∀ j < 10, slot.raw.getD j 0#8 = bytes.getD j 0#8) (hdev : bytes.getD 0 0#8 = 0x10)
    (hrange : AllInRange bytes) : parseCode Config.dlrx slot = .ok := by
  have hr : AllInRange slot.raw := fun i hi => by rw [tenths_congr hraw hi]; exact hrange i hi
  rw [parseCode_eq, if_neg (not_not.mpr hlen), if_neg (not_not.mpr ((hraw 0 (by decide)).trans hdev)),
    if_pos hr]

/-- What completing a good frame of these bytes leaves (42_dlbus_framer.md R177; 43_uvr42_parser.md R205, R207,
R208): the result, the snapshot, the two counters, and the framer awaiting sync. -/
structure PublishedFrame (bytes : List Byte) (s t : State) : Prop where
  res : t.res = { code := .ok, seq := s.res.seq + 1 }
  valid : t.snap.valid = true
  seq : t.snap.seq = s.snap.seq + 1
  t1 : t.snap.t1.toInt = tenths bytes 1
  t2 : t.snap.t2.toInt = tenths bytes 2
  t3 : t.snap.t3.toInt = tenths bytes 3
  t4 : t.snap.t4.toInt = tenths bytes 4
  out1 : t.snap.out1 = (bytes.getD 9 0#8).getLsbD 5
  out2 : t.snap.out2 = (bytes.getD 9 0#8).getLsbD 6
  ts : t.snap.ts = s.env.wallTime
  cnt : t.cnt = { s.cnt with frames := s.cnt.frames + 1, ok := s.cnt.ok + 1 }
  awaiting : t.frm.fstate = .awaitingSync
  sync : t.frm.syncCnt = 1

/-- Completing a good frame publishes it. -/
theorem complete_of_goodFrame {s : State} {bytes : List Byte} (hlen : s.frm.bufLen = 10)
    (hbuf : ∀ j < 10, s.frm.buf.getD j 0#8 = bytes.getD j 0#8) (hdev : bytes.getD 0 0#8 = 0x10)
    (hrange : AllInRange bytes) : PublishedFrame bytes s (complete Config.dlrx s) := by
  have hraw : ∀ j < 10,
      (completedSlot Config.dlrx s.frm s.rawSlot).raw.getD j 0#8 = bytes.getD j 0#8 := fun j hj => by
    rw [completedSlot_getD, hlen, if_pos ⟨hj, by omega⟩, hbuf j hj]
  have hout : ∀ k, outBit (completedSlot Config.dlrx s.frm s.rawSlot).raw k = (bytes.getD 9 0#8).getLsbD k :=
    fun k => congrArg (BitVec.getLsbD · k) (hraw 9 (by decide))
  rw [complete_eq, parse_of_ok (parseCode_of_goodFrame hlen hraw hdev hrange)]
  exact ⟨rfl, rfl, rfl, tenths_congr hraw (by decide), tenths_congr hraw (by decide),
    tenths_congr hraw (by decide), tenths_congr hraw (by decide), hout 5, hout 6, rfl, rfl, rfl, rfl⟩

/-- A frame's bits, as symbols, are its byte records after the gap (30_encoding.md R110, R119). -/
theorem map_bitSymbol_frameBits (bytes : List Byte) :
    (frameBits bytes).map bitSymbol = List.replicate 16 .high ++ bytes.flatMap byteSymbols := by
  rw [frameBits, List.map_append, List.map_replicate, List.map_flatMap]
  rfl

/-- A frame of ten bytes is 116 bits (30_encoding.md R119). -/
theorem frameBits_length {bytes : List Byte} (h : bytes.length = 10) : (frameBits bytes).length = 116 := by
  simp [frameBits, List.length_flatMap, byteBits, h]

/-- A ten-byte frame and one more `High`, handed to an awaiting framer, complete with the frame in the buffer
(42_dlbus_framer.md R171 to R177). -/
theorem runFramer_frameBits {s : State} {bytes : List Byte} (ha : s.frm.fstate = .awaitingSync)
    (hb : s.frm.buf.length = 16) (hlen : bytes.length = 10) :
    ∃ g : Framer, g.bufLen = 10 ∧ (∀ j < 10, g.buf.getD j 0#8 = bytes.getD j 0#8) ∧
      runFramer ((frameBits bytes ++ [true]).map bitSymbol) s =
        complete Config.dlrx { s with frm := g } := by
  obtain ⟨g, ⟨hrun, -⟩, hrecv, h0, hl, -, hbytes⟩ :=
    silently_gap_frame 16 bytes ha hb (Nat.le_add_left 16 _) (by rintro rfl; simp at hlen)
  refine ⟨g, ?_, fun j hj => hbytes j (by omega) (by omega), ?_⟩
  · rw [hlen] at hl
    exact BitVec.eq_of_toNat_eq hl
  · rw [List.map_append, map_bitSymbol_frameBits]
    refine (List.foldl_append ..).trans ?_
    rw [show List.foldl _ s _ = _ from hrun]
    exact framer_completes hrecv h0

/-- Settles O37: the edges decode to the frame's bits, these complete it, and a good frame is published. -/
theorem edgesOfAGoodFrameReachTheSnapshot : Obligations.EdgesOfAGoodFrameReachTheSnapshot := by
  intro s t0 level bytes hsync hlast hsens hT href hpast hmax hawait hbuf hlen hdev hrange edges t
  have h : BetweenBits s.dec.halfT.toNat t0 s.dec := ⟨⟨hsync, rfl, hsens⟩, hlast, href, hpast⟩
  have hbits : (frameBits bytes ++ [true]).length = 117 := by
    rw [List.length_append, frameBits_length hlen]; rfl
  obtain ⟨d, o, hd, -, -, hend⟩ := waveform_performs hT (frameBits bytes ++ [true]) level h (hbits ▸ hmax)
  obtain ⟨g, hglen, hgbuf, hframer⟩ := runFramer_frameBits hawait hbuf hlen
  rw [hframer] at hend
  have ht : t = { complete Config.dlrx { s with frm := g } with dec := d, out := o } := hend
  have hp := complete_of_goodFrame (s := { s with frm := g }) hglen hgbuf hdev hrange
  rw [ht]
  exact ⟨hp.res, hp.valid, hp.seq, hp.t1, hp.t2, hp.t3, hp.t4, hp.out1, hp.out2, hp.ts, hp.cnt,
    hd.clocked.synced, hp.awaiting, hp.sync⟩

end Sys2Proof.Machine

/-! Family 41_manchester_decoder: an edge by decoder state, diverted edges and drop markers
(41_manchester_decoder.md R130, R131, R136 to R140). -/

namespace Sys2Proof.Machine

open Sys2Proof.Safety

/-! ### Drop markers and diverted edges -/

/-- The two edge rows are one operation at the two polarities (30_encoding.md R100). -/
theorem exec_both_edges {ts : Tick} {s : State} {f : Polarity → State}
    (h : ∀ pol, edge Config.dlrx pol ts (beginEdge s) = f pol) :
    exec (.fe ts) s = .next (f .falling) ∧ exec (.re ts) s = .next (f .rising) :=
  ⟨congrArg _ (h .falling), congrArg _ (h .rising)⟩

/-- Settles O20, by decoder state. -/
theorem dropFollowsItsRule : Obligations.DropFollowsItsRule := by
  intro s c
  rw [exec_drop, dropMarker_eq, beginEdge_dec]
  cases s.dec.dstate <;> rfl

/-- Settles O12: what is diverted is a drop marker with `INERR` set. -/
theorem divertedEdgesAreDropsWithInerr : Obligations.DivertedEdgesAreDropsWithInerr := by
  refine fun s => ⟨_, exec_drop s, congrArg _ (divert_eq _), fun ts h => ?_⟩
  refine exec_both_edges (f := fun _ => _) fun pol => ?_
  have hn : notIncreasing ts (beginEdge s).dec = true := notIncreasing_eq_true.mpr h
  rw [edge, if_pos hn, divert_eq]

/-! ### Accepted edges, by decoder state -/

section accepted
variable {pol : Polarity} {ts : Tick} {s : State} (ha : Accepted ts s.dec)
include ha

/-- An accepted edge notes its time after the decoder's work, then hands on the symbol
(41_manchester_decoder.md R130). -/
theorem edge_of_accepted {u : State} {y : Option Symbol}
    (h : decodeByState Config.dlrx pol ts (beginEdge s) = (u, y)) :
    edge Config.dlrx pol ts (beginEdge s) =
      y.elim (noteTime ts u) fun y => emit Config.dlrx y (noteTime ts u) := by
  have hn : notIncreasing ts (beginEdge s).dec = false := notIncreasing_eq_false.mpr ha
  rw [edge, hn, if_neg Bool.false_ne_true, h]
  cases y <;> rfl

/-- In `DiscoverClock` an accepted edge does `DiscoverEdge` and emits nothing (41_manchester_decoder.md R130). -/
theorem edge_of_discovering (hd : s.dec.dstate = .discoverClock) :
    edge Config.dlrx pol ts (beginEdge s) = noteTime ts (discoverEdge Config.dlrx ts (beginEdge s)) :=
  edge_of_accepted (y := none) ha (by rw [decodeByState, beginEdge_dec, hd])

section synchronizing
variable (hd : s.dec.dstate = .synchronizing)
include hd

/-- In `Synchronizing` an accepted edge does `SyncingEdge` and emits nothing (41_manchester_decoder.md R130). -/
theorem edge_of_synchronizing :
    edge Config.dlrx pol ts (beginEdge s) =
      noteTime ts (syncingEdge Config.dlrx ts pol (beginEdge s)) :=
  edge_of_accepted (y := none) ha (by rw [decodeByState, beginEdge_dec, hd])

/-- A falling edge at interval 2 synchronises (41_manchester_decoder.md R136). -/
theorem edge_of_syncing (hr : s.dec.refValid = true) (hc : edgeClass ts s.dec = 2) :
    edge Config.dlrx .falling ts (beginEdge s) =
      { s with
        dec :=
          { timed ts s.dec with
            dstate := .synchronized, last := 0, ref := refBefore ts s.dec.halfT, refValid := true }
        out := edgeOutputs none } := by
  rcases syncingEdge_cases ts .falling (beginEdge s) with ⟨-, -, -, e⟩ | ⟨hn, -⟩
  · rw [edge_of_synchronizing ha hd, e, ← hr]
    rfl
  · exact absurd ⟨hr, hc, rfl⟩ hn

/-- Every other edge becomes the reference (41_manchester_decoder.md R136). -/
theorem edge_of_waiting (hn : ¬(s.dec.refValid = true ∧ edgeClass ts s.dec = 2 ∧ pol = .falling)) :
    edge Config.dlrx pol ts (beginEdge s) =
      { s with
        dec := { timed ts s.dec with ref := refAt ts, refValid := true }, out := edgeOutputs none } := by
  rcases syncingEdge_cases ts pol (beginEdge s) with ⟨hr, hc, hp, -⟩ | ⟨-, e⟩
  · exact absurd ⟨hr, hc, hp⟩ hn
  · rw [edge_of_synchronizing ha hd, e]
    rfl

end synchronizing

section synchronized
variable (hd : s.dec.dstate = .synchronized)
include hd

/-- In `Synchronized` an accepted edge does `SyncedEdge` and hands on its symbol (41_manchester_decoder.md R130). -/
theorem edge_of_synchronized {u : State} {y : Option Symbol}
    (h : syncedEdge Config.dlrx ts pol (beginEdge s) = (u, y)) :
    edge Config.dlrx pol ts (beginEdge s) =
      y.elim (noteTime ts u) fun y => emit Config.dlrx y (noteTime ts u) :=
  edge_of_accepted ha (by rw [decodeByState, beginEdge_dec, hd, ← h])

/-- A boundary edge, interval 2 after a mid-bit one (41_manchester_decoder.md R137). -/
theorem edge_of_boundary (hc : edgeClass ts s.dec = 2) (hl : s.dec.last ≠ 2) :
    edge Config.dlrx pol ts (beginEdge s) =
      { s with
        dec := { timed ts s.dec with ref := refAt ts, last := 2 }, out := edgeOutputs none } := by
  rcases syncedEdge_cases ts pol (beginEdge s) with ⟨-, -, e⟩ | ⟨h, -⟩ | ⟨h, -⟩
  · rw [edge_of_synchronized ha hd e]
    rfl
  · rw [beginEdge_dec, hc] at h
    omega
  · rw [beginEdge_dec, hc, Bool.eq_false_iff, ne_eq, accepts_iff] at h
    exact absurd (.inr ⟨.inl rfl, hl⟩) h

/-- A mid-bit edge, interval 1 after a boundary edge or 3 after a mid-bit one (41_manchester_decoder.md R137,
R138). -/
theorem edge_of_midBit {n : Int} (hn : edgeClass ts s.dec = n)
    (hc : n = 1 ∧ s.dec.last = 2 ∨ n = 3 ∧ s.dec.last ≠ 2) :
    edge Config.dlrx pol ts (beginEdge s) =
      framer Config.dlrx pol.symbol
        { s with
          dec := { timed ts s.dec with ref := refBefore ts s.dec.halfT, last := BitVec.ofInt 2 n }
          out := edgeOutputs (some pol.symbol.code) } := by
  subst hn
  rcases syncedEdge_cases ts pol (beginEdge s) with ⟨h, -, -⟩ | ⟨-, e⟩ | ⟨h, -⟩
  · rw [beginEdge_dec] at h
    omega
  · rw [edge_of_synchronized ha hd e]
    rfl
  · rw [beginEdge_dec, Bool.eq_false_iff, ne_eq, accepts_iff] at h
    exact absurd (hc.imp id fun hc => ⟨.inr hc.1, hc.2⟩) h

/-- An edge in no row of the table (41_manchester_decoder.md R137). -/
theorem edge_of_violation (hc : accepts (edgeClass ts s.dec) s.dec.last = false) :
    edge Config.dlrx pol ts (beginEdge s) =
      framer Config.dlrx .invalid
        { s with
          dec := { timed ts s.dec with dstate := .synchronizing, ref := refAt ts, refValid := true, last := 0 }
          cnt := { s.cnt with invalid := s.cnt.invalid + 1 }
          flags := { s.flags with errNew := true }
          out := edgeOutputs (some 0b10) } := by
  rw [Bool.eq_false_iff, ne_eq, accepts_iff] at hc
  rcases syncedEdge_cases ts pol (beginEdge s) with ⟨h, h', -⟩ | ⟨h, -⟩ | ⟨-, e⟩
  · exact absurd (.inr ⟨.inl h, h'⟩) hc
  · exact absurd (h.imp id fun h => ⟨.inr h.1, h.2⟩) hc
  · rw [edge_of_synchronized ha hd e]
    rfl

end synchronized

end accepted

/-- Settles O13: the first edge, a recorded interval, and the one that completes the count. -/
theorem discoverEdgeFollowsItsRule : Obligations.DiscoverEdgeFollowsItsRule := by
  intro s ts ha hd first recorded done d
  refine exec_both_edges (f := fun _ => _) fun pol => ?_
  rw [edge_of_discovering ha hd]
  rcases discoverEdge_cases ts (beginEdge s) with ⟨hp, e⟩ | ⟨hp, hn, e⟩ | ⟨hp, hn, e⟩
  · rw [e, show d = first from if_pos hp]
    rfl
  · rw [e, show d = recorded from (if_neg (ne_false_of_eq_true hp)).trans (if_neg hn)]
    rfl
  · rw [e, show d = done from (if_neg (ne_false_of_eq_true hp)).trans (if_pos hn)]
    rfl

/-- Settles O18: only a falling edge at interval 2 with a valid reference synchronises. -/
theorem syncingEdgeFollowsItsRule : Obligations.SyncingEdgeFollowsItsRule := by
  intro s ts ha hd d waits synced
  refine ⟨?_, congrArg Host.Outcome.next (edge_of_waiting (pol := .rising) ha hd nofun)⟩
  split_ifs with h
  · exact congrArg Host.Outcome.next (edge_of_syncing ha hd h.1 h.2)
  · exact congrArg Host.Outcome.next (edge_of_waiting ha hd fun ⟨hr, hc, _⟩ => h ⟨hr, hc⟩)

/-- Settles O19: the rows of the acceptance table, and the violation. -/
theorem syncedEdgeFollowsItsTable : Obligations.SyncedEdgeFollowsItsTable := by
  intro s ts ha hd i d boundary emitted violation
  split_ifs with h2 h1 h3
  · exact exec_both_edges fun pol => edge_of_boundary ha hd h2.1 h2.2
  · exact exec_both_edges fun pol => edge_of_midBit ha hd h1.1 (.inl ⟨rfl, h1.2⟩)
  · exact exec_both_edges fun pol => edge_of_midBit ha hd h3.1 (.inr ⟨rfl, h3.2⟩)
  · have hc : accepts i s.dec.last = false := by
      rw [Bool.eq_false_iff, ne_eq, accepts_iff]
      tauto
    exact exec_both_edges fun pol => edge_of_violation ha hd hc

end Sys2Proof.Machine

/-! Family 41_manchester_decoder: the interval class, the decoder's times and the calibration as numbers
(41_manchester_decoder.md R131 to R135, R141, R142). -/

namespace Sys2Proof.Machine

open Sys2Proof.Safety

/-! ### The interval class -/

/-- Settles O16: the bands of a floor quotient, and the truncated one on each side of 0. -/
theorem intervalClassHasItsBands : Obligations.IntervalClassHasItsBands := by
  intro sens halfT e hT
  have hT : (0 : Int) < halfT.toNat := by omega
  refine ⟨fun n => ?_, fun p hp => ⟨fun he => ?_, fun hlo hhi => ?_⟩⟩
  · rw [intervalClass_eq, ← eq_sub_iff_add_eq, Int.ediv_eq_iff_of_pos hT]
    constructor <;> rintro ⟨h1, h2⟩ <;> constructor <;> linarith
  · rw [intervalClass_eq, intervalClass, hp, quot, Int.tdiv_eq_ediv_of_nonneg (by omega)]
  · have hq : (e - sens.toNat).tdiv halfT.toNat = 0 := by
      rw [← neg_neg (e - _), Int.neg_tdiv, Int.tdiv_eq_zero_of_lt (by omega) (by omega), neg_zero]
    rw [intervalClass, hp, quot, hq, zero_add]

/-! ### Times -/

/-- A recorded sample is the time since the last edge, which is earlier (41_manchester_decoder.md R131). -/
theorem recordSample_exact {ts : Tick} {d : Decoder} (hlt : d.lastTs.toNat < ts.toNat)
    (hcnt : d.sampleCnt.toNat < d.samples.length) :
    ((recordSample ts d).samples.getD d.sampleCnt.toNat 0).toNat = ts.toNat - d.lastTs.toNat := by
  rw [recordSample, List.getD_eq_getElem?_getD, List.getElem?_set_self hcnt]
  exact Tick.toNat_sub_of_lt hlt

/-- The time since a reference that is not after the last edge (41_manchester_decoder.md R141). -/
theorem elapsed_bounds {ts : Tick} {d : Decoder} (href : d.ref.toInt ≤ d.lastTs.toNat)
    (hlt : d.lastTs.toNat < ts.toNat) : 1 ≤ elapsed ts d.ref ∧ elapsed ts d.ref < 2 ^ 65 := by
  have hts := Tick.toNat_lt ts
  have hmin : -2 ^ 64 ≤ d.ref.toInt := BitVec.le_toInt d.ref
  rw [elapsed]
  omega

/-- Settles O17: references by their rule, samples and elapsed times by the decoder invariant. -/
theorem decoderTimesAreExact : Obligations.DecoderTimesAreExact := by
  refine ⟨refAt_toInt, refBefore_toInt, fun ts d hinv hd hprev ha => ?_, fun ts d hinv hd hr ha => ?_⟩
  · have hlt := ha (hinv.prev_valid hprev)
    have hcnt := hinv.discovering.mp hd
    refine ⟨recordSample_exact hlt (hinv.samples_len ▸ hcnt), hlt, ?_, fun j hj => ?_⟩
    · exact BitVec.toNat_add_of_lt (show d.sampleCnt.toNat + 1 < 2 ^ 16 by omega)
    · rw [recordSample, List.getD_eq_getElem?_getD, List.getElem?_set_ne hj.symm,
        List.getD_eq_getElem?_getD]
  · obtain ⟨hv, hpast⟩ := hinv.ref_past hd hr
    exact elapsed_bounds hpast (ha hv)

/-! ### Calibration -/

/-- Dropping the ends of a list of three or more keeps its second value first. -/
theorem initialEstimate_tail_dropLast {S : List Nat} (h : 2 < S.length) :
    initialEstimate S.tail.dropLast = S.getD 1 0 := by
  match S, h with
  | _ :: _ :: _ :: _, _ => rfl

/-- An empty class has mean 0 (41_manchester_decoder.md R133). -/
theorem mean_eq_ite (l : List Nat) : mean l = if l = [] then 0 else l.sum / l.length := by
  split_ifs with h
  · rw [h]; rfl
  · rfl

/-- The trimmed samples are not none. -/
theorem trimmed_ne_nil {l : List Nat} (h : 2 < l.length) : trimmed l ≠ [] := by
  rw [← List.length_pos_iff, trimmed_length]
  omega

/-- The classes of a list less its ends, split at one and a half times its second value
(41_manchester_decoder.md R132, R133). -/
theorem classes_tail_dropLast {S : List Nat} (h : 2 < S.length) :
    halfClass Config.dlrx S.tail.dropLast = S.tail.dropLast.filter (fun x => 2 * x ≤ 3 * S.getD 1 0) ∧
    fullClass Config.dlrx S.tail.dropLast = S.tail.dropLast.filter (fun x => 3 * S.getD 1 0 < 2 * x) := by
  rw [halfClass, fullClass, initialEstimate_tail_dropLast h]
  exact ⟨rfl, rfl⟩

/-- The half-bit estimate is no smaller than the initial one (41_manchester_decoder.md R133). -/
theorem initialEstimate_le_halfT {d : Decoder} (hd : d.samples.length = 500) :
    initialEstimate (trimmed (d.samples.map BitVec.toNat)) ≤ (calibrate Config.dlrx d).halfT.toNat := by
  have hne : trimmed (d.samples.map BitVec.toNat) ≠ [] := trimmed_ne_nil (by rw [List.length_map]; omega)
  have hsort := trimmed_sorted (d.samples.map BitVec.toNat)
  rw [(calibrate_toNat d hd).1]
  exact le_mean (List.ne_nil_of_mem (initialEstimate_mem_halfClass hne hsort)) fun x hx =>
    (initialEstimate_spec hne hsort).2 x (List.mem_of_mem_filter hx)

/-- Settles O14: the estimates of the trimmed samples, for the one ascending arrangement of them. -/
theorem calibrationFollowsItsRules : Obligations.CalibrationFollowsItsRules := by
  intro d S hlen hperm hsort R T0 H F c
  have hS : 2 < S.length := by rw [hperm.length_eq, List.length_map]; omega
  have hR : trimmed (d.samples.map BitVec.toNat) = R := trimmed_eq hperm hsort
  have hT0 : initialEstimate R = T0 := initialEstimate_tail_dropLast hS
  obtain ⟨hH, hF⟩ : halfClass Config.dlrx R = H ∧ fullClass Config.dlrx R = F :=
    classes_tail_dropLast hS
  obtain ⟨hhalf, hfull, hsens⟩ := calibrate_toNat d hlen
  have hle : initialEstimate (trimmed _) ≤ c.halfT.toNat := initialEstimate_le_halfT hlen
  have hmem := initialEstimate_mem_halfClass (trimmed_ne_nil (hperm.length_eq ▸ hS)) (trimmed_sorted _)
  rw [hR, hT0] at hle hmem
  rw [hH] at hmem
  rw [← hhalf] at hsens
  have hsens : c.sens.toNat = 6 * c.halfT.toNat / 10 := hsens
  rw [hR, hH] at hhalf
  rw [hR, hF, mean_eq_ite] at hfull
  refine ⟨hmem, hhalf, hfull, hsens, rfl, fun hpos => ?_, calibrate_frame d⟩
  have hone : 1 ≤ T0 :=
    hpos T0 (List.mem_of_mem_tail (List.dropLast_subset _ (List.mem_of_mem_filter hmem)))
  exact ⟨hone, hle, by omega⟩

/-! ### Convergence of clock discovery -/

/-- With two samples up to a bound, the smallest trimmed one is up to it too. -/
theorem initialEstimate_trimmed_le {l : List Nat} {b : Nat} (hlen : 2 < l.length)
    (h : 2 ≤ (l.filter (· ≤ b)).length) : initialEstimate (trimmed l) ≤ b := by
  have hp := List.perm_insertionSort (· ≤ ·) l
  have hs := List.pairwise_insertionSort (· ≤ ·) l
  rw [trimmed_eq hp hs, initialEstimate_tail_dropLast (by rwa [hp.length_eq])]
  rw [← hp.length_eq] at hlen
  rw [← (hp.filter _).length_eq] at h
  match l.insertionSort (· ≤ ·), hlen, hs, h with
  | x :: y :: rest, _, hs, h =>
    obtain ⟨-, hs⟩ := List.pairwise_cons.mp hs
    by_contra hy
    have hy : b < y := not_le.mp hy
    have htail : ∀ z ∈ y :: rest, b < z :=
      List.forall_mem_cons.mpr ⟨hy, fun z hz => hy.trans_le ((List.pairwise_cons.mp hs).1 z hz)⟩
    have hnone : (y :: rest).filter (· ≤ b) = [] :=
      List.filter_eq_nil_iff.mpr fun z hz => by simpa using htail z hz
    rw [List.filter_cons, hnone] at h
    split_ifs at h <;> simp at h

/-- A sample within 5% of T or of 2T. -/
def NearHalfOrFull (T x : Nat) : Prop :=
  (19 * T ≤ 20 * x ∧ 20 * x ≤ 21 * T) ∨ (38 * T ≤ 20 * x ∧ 20 * x ≤ 42 * T)

/-- With at most 5% jitter, an initial estimate of the half-bit kind splits the samples at 1.05 T
(41_manchester_decoder.md R133, R142). -/
theorem halfClass_of_near {T : Nat} {r : List Nat} (hnear : ∀ x ∈ r, NearHalfOrFull T x)
    (hmem : initialEstimate r ∈ r) (hT0 : 20 * initialEstimate r ≤ 21 * T) :
    halfClass Config.dlrx r = r.filter (fun x => 20 * x ≤ 21 * T) := by
  refine List.filter_congr fun x hx => decide_eq_decide.mpr ?_
  have hx := hnear x hx
  have h0 := hnear _ hmem
  rw [dlrx_classDen, dlrx_classNum]
  unfold NearHalfOrFull at hx h0
  omega

/-- Settles O15: two half-bit samples leave one after trimming, so the initial estimate is of that kind. -/
theorem clockDiscoveryConverges : Obligations.ClockDiscoveryConverges := by
  intro d T hlen hnear htwo R
  have hl : 2 < (d.samples.map BitVec.toNat).length := by rw [List.length_map]; omega
  have hne : R ≠ [] := trimmed_ne_nil hl
  have hR : ∀ x ∈ R, NearHalfOrFull T x := fun x hx => by
    obtain ⟨v, hv, rfl⟩ := List.mem_map.mp (mem_of_mem_trimmed hx)
    exact hnear v hv
  have hT0 : initialEstimate R ≤ 21 * T / 20 := by
    refine initialEstimate_trimmed_le hl ?_
    rw [List.filter_map, List.length_map]
    refine htwo.trans_eq (congrArg List.length (List.filter_congr fun x _ => ?_))
    exact decide_eq_decide.mpr (by omega)
  have hH := halfClass_of_near hR (initialEstimate_spec hne (trimmed_sorted _)).1 (by omega)
  have hbounds : ∀ x ∈ halfClass Config.dlrx R, 19 * T ≤ 20 * x ∧ 20 * x ≤ 21 * T := fun x hx => by
    rw [hH, List.mem_filter, decide_eq_true_eq] at hx
    have := hR x hx.1
    unfold NearHalfOrFull at this
    omega
  have hHne := List.ne_nil_of_mem (initialEstimate_mem_halfClass hne (trimmed_sorted _))
  have hlo : (19 * T + 19) / 20 ≤ mean (halfClass Config.dlrx R) :=
    le_mean hHne fun x hx => by have := hbounds x hx; omega
  have hhi : mean (halfClass Config.dlrx R) ≤ 21 * T / 20 :=
    mean_le fun x hx => by have := hbounds x hx; omega
  have hhalf : (calibrate Config.dlrx d).halfT.toNat = mean (halfClass Config.dlrx R) :=
    (calibrate_toNat d hlen).1
  rw [hhalf]
  exact ⟨hH, by omega, by omega⟩

end Sys2Proof.Machine

/-! Family 42_dlbus_framer: each symbol by framer state, the completion of a frame, and streams of frames
(42_dlbus_framer.md R170 to R179). -/

namespace Sys2Proof.Machine

open Sys2Proof.Safety

/-! ### One symbol -/

/-- A symbol in `AwaitingSync` (42_dlbus_framer.md R170). -/
theorem framer_of_awaiting {s : State} (y : Symbol) (h : s.frm.fstate = .awaitingSync) :
    framer Config.dlrx y s = awaitSync Config.dlrx y s := by
  simp [framer, h]

/-- A `Low` start bit (42_dlbus_framer.md R173). -/
theorem framer_startBit {s : State} (h : s.frm.fstate = .receiving) (h0 : s.frm.bitIndex = 0) :
    framer Config.dlrx .low s = { s with frm := { s.frm with shift := 0, bitIndex := 1 } } := by
  simp [framer, h, h0, startBit]

/-- A `Low` data bit at index k + 1 only advances the index (42_dlbus_framer.md R174). -/
theorem framer_low_dataBit {s : State} {k : Nat} (hk8 : k < 8) (h : s.frm.fstate = .receiving)
    (hk : s.frm.bitIndex.val = k + 1) :
    framer Config.dlrx .low s =
      { s with frm := { s.frm with bitIndex := ⟨k + 2, Nat.add_lt_add_right hk8 2⟩ } } := by
  simpa [bitSymbol] using framer_dataBit false k hk8 h hk

/-- A `Low` stop bit (42_dlbus_framer.md R176). -/
theorem framer_framingError {s : State} (h : s.frm.fstate = .receiving) (h9 : s.frm.bitIndex = 9) :
    framer Config.dlrx .low s = framingError s := by
  simp [framer, h, h9]

/-- The three places of a byte record: the start bit, data bit k, the stop bit (42_dlbus_framer.md R170). -/
theorem Framer.bitIndex_cases (f : Framer) :
    f.bitIndex = 0 ∨ (∃ k < 8, f.bitIndex.val = k + 1 ∧ f.bitIndex ≠ 0 ∧ f.bitIndex ≠ 9) ∨
      f.bitIndex = 9 := by
  by_cases h0 : f.bitIndex = 0
  · exact .inl h0
  by_cases h9 : f.bitIndex = 9
  · exact .inr (.inr h9)
  have hlt := f.bitIndex_lt
  have hv0 : f.bitIndex.val ≠ 0 := fun h => h0 (Fin.ext h)
  have hv9 : f.bitIndex.val ≠ 9 := fun h => h9 (Fin.ext h)
  exact .inr (.inl ⟨f.bitIndex.val - 1, by omega, by omega, h0, h9⟩)

/-- Setting bit k of a byte. -/
theorem getLsbD_or_one_shiftLeft (v : Byte) {k : Nat} (hk : k < 8) (j : Nat) :
    (v ||| (BitVec.ofBool true).setWidth 8 <<< k).getLsbD j = (v.getLsbD j || decide (j = k)) := by
  have hbit : (BitVec.ofBool true).setWidth 8 <<< k = BitVec.twoPow 8 k := rfl
  rw [BitVec.getLsbD_or, hbit, BitVec.getLsbD_twoPow, decide_eq_true hk, Bool.true_and]
  exact congrArg _ (decide_eq_decide.mpr eq_comm)

/-- Settles O23: the symbol rows are the framer after every strobe is low. -/
theorem symbolWordsDriveTheFramer : Obligations.SymbolWordsDriveTheFramer := fun s =>
  ⟨exec_symLow s, exec_symHigh s, exec_symInvalid s⟩

/-- Settles O25, symbol by symbol. -/
theorem awaitSyncFollowsItsRule : Obligations.AwaitSyncFollowsItsRule := by
  intro s h
  simp only [framer_of_awaiting _ h]
  refine ⟨?high, rfl, ?low⟩
  case high => rw [awaitSync, satSucc_eq]
  case low =>
    rw [awaitSync, dlrx_syncLen]
    split_ifs <;> rfl

/-- Settles O26: `Invalid` in `Receiving` is a discard. -/
theorem invalidDiscardsTheFrame : Obligations.InvalidDiscardsTheFrame := by
  intro s h
  rw [framer_invalid, if_pos h]

/-- Settles O27, place by place of a byte record. -/
theorem byteRecordBitsFollowTheirRules : Obligations.ByteRecordBitsFollowTheirRules := by
  refine fun s h =>
    ⟨framer_startBit h, fun k hk => ⟨framer_low_dataBit k.isLt h hk, ?high⟩, fun h9 => ?stop⟩
  case high =>
    exact ⟨_, getLsbD_or_one_shiftLeft s.frm.shift k.isLt, framer_dataBit true k.val k.isLt h hk⟩
  case stop =>
    rw [framer_stopBit h h9, Framer.withByte, satSucc_eq]

/-- Settles O28: a `Low` stop bit is a framing error. -/
theorem lowStopBitIsAFramingError : Obligations.LowStopBitIsAFramingError := fun s h h9 =>
  (framer_framingError h h9).trans (framingError_eq s)

/-- Settles O32, symbol by symbol and place by place of a byte record. -/
theorem dataNeverResynchronisesTheFramer : Obligations.DataNeverResynchronisesTheFramer := by
  intro s y h
  cases y with
  | invalid => simp [framer_invalid, h]
  | low =>
    obtain h0 | ⟨k, hk8, hk, -, h9⟩ | h9 := s.frm.bitIndex_cases
    · simp [framer_startBit h h0, h, h0]
    · simp [framer_low_dataBit hk8 h hk, h, h9]
    · simp [framer_framingError h h9, framingError_eq, h9]
  | high =>
    obtain h0 | ⟨k, hk8, hk, h0, -⟩ | h9 := s.frm.bitIndex_cases
    · simp [framer_completes h h0, complete_eq, h0]
    · have hbit : framer Config.dlrx .high s = _ := framer_dataBit true k hk8 h hk
      simp [hbit, h, h0]
    · simp [framer_stopBit h h9, Framer.withByte, h, h9]

/-! ### The completion of a frame -/

/-- A completion leaves the framer awaiting sync with one `High` counted (42_dlbus_framer.md R177). -/
theorem complete_frm (s : State) :
    (complete Config.dlrx s).frm =
      { s.frm with fstate := .awaitingSync, syncCnt := 1, bitIndex := 0, bufLen := 0 } := by
  rw [complete_eq]

/-- A completion leaves the frame in the raw slot (42_dlbus_framer.md R177). -/
theorem complete_rawSlot (s : State) :
    (complete Config.dlrx s).rawSlot = completedSlot Config.dlrx s.frm s.rawSlot := by
  simp [complete_eq]

/-- A completion counts one frame (42_dlbus_framer.md R177). -/
theorem complete_cnt_frames (s : State) :
    (complete Config.dlrx s).cnt.frames = s.cnt.frames + 1 := by
  simp [complete_eq]

/-- Settles O29: the slot of a completion, and the parse of it. -/
theorem missingStartBitCompletesTheFrame : Obligations.MissingStartBitCompletesTheFrame := by
  intro s h h0
  refine ⟨completedSlot Config.dlrx s.frm s.rawSlot, completedSlot_length .., rfl, rfl, ?bytes, ?final⟩
  case bytes =>
    intro j hj
    simp only [completedSlot_getD, hj, and_true]
  case final =>
    intro out completed
    have hover : (s.flags.rawOverrun || s.flags.rawReady) =
        if s.flags.rawReady then true else s.flags.rawOverrun := by
      cases s.flags.rawReady <;> simp
    rw [framer_completes (s := { s with out := out }) h h0, complete_eq]
    simp only [completed, hover]

/-- A bit of a word is its place's weight in it. -/
theorem getLsbD_iff_and_twoPow_ne_zero {w k : Nat} (hk : k < w) (v : BitVec w) :
    v.getLsbD k = true ↔ v &&& BitVec.twoPow w k ≠ 0 := by
  have hpow : BitVec.twoPow w k ≠ 0 := fun h => by
    simpa [hk] using congrArg (BitVec.getLsbD · k) h
  rw [BitVec.and_twoPow]
  split_ifs with hv
  · exact iff_of_true hv hpow
  · exact iff_of_false hv (not_not.mpr rfl)

/-- A ten-byte frame of device 0x10 out of range is `TEMP` (43_uvr42_parser.md R200 to R206). -/
theorem parseCode_of_outOfRange {slot : RawSlot} {bytes : List Byte} (hlen : slot.rawLen = 10)
    (hraw : ∀ j < 10, slot.raw.getD j 0#8 = bytes.getD j 0#8) (hdev : bytes.getD 0 0#8 = 0x10)
    (hrange : ¬ AllInRange bytes) : parseCode Config.dlrx slot = .temp := by
  have hr : ¬ AllInRange slot.raw := fun h =>
    hrange fun i hi => by rw [← tenths_congr hraw hi]; exact h i hi
  rw [parseCode_eq, if_neg (not_not.mpr hlen), if_neg (not_not.mpr ((hraw 0 (by decide)).trans hdev)),
    if_neg hr]

/-- Completing a frame out of range names the result `TEMP` and keeps the snapshot (43_uvr42_parser.md R209). -/
theorem complete_of_outOfRange {s : State} (hlen : s.frm.bufLen = 10) (hdev : s.frm.buf.getD 0 0#8 = 0x10)
    (hrange : ¬ AllInRange s.frm.buf) :
    (complete Config.dlrx s).res.code = .temp ∧ (complete Config.dlrx s).snap = s.snap := by
  have hcode : parseCode Config.dlrx (completedSlot Config.dlrx s.frm s.rawSlot) = .temp :=
    parseCode_of_outOfRange hlen
      (fun j hj => by rw [completedSlot_getD, hlen, if_pos ⟨hj, by omega⟩]) hdev hrange
  rw [complete_eq, parse_of_not_ok (by simp [hcode])]
  exact ⟨hcode, rfl⟩

/-- Settles O36: the `High` completes the frame in the buffer, which is published or rejected by its range. -/
theorem completedFrameReachesTheSnapshot : Obligations.CompletedFrameReachesTheSnapshot := by
  intro s h h0 hlen _ hdev
  refine ⟨complete Config.dlrx (quiet s), ?_, fun hrange => ?_, fun hrange => ?_⟩
  · rw [exec_symHigh, framer_completes (s := quiet s) h h0]
  · have hp := complete_of_goodFrame (s := quiet s) hlen (fun _ _ => rfl) hdev hrange
    refine ⟨congrArg Result.code hp.res, hp.valid, hp.t1, hp.t2, hp.t3, hp.t4, ?_, ?_⟩
    · rw [hp.out1]; exact getLsbD_iff_and_twoPow_ne_zero (by decide) _
    · rw [hp.out2]; exact getLsbD_iff_and_twoPow_ne_zero (by decide) _
  · exact complete_of_outOfRange (s := quiet s) hlen hdev hrange

/-! ### Streams of frames -/

/-- A framer that holds these bytes as a whole frame, which the next `High` completes (42_dlbus_framer.md R175,
R177). -/
structure HoldsFrame (bytes : List Byte) (f : Framer) : Prop where
  receiving : f.fstate = .receiving
  at_boundary : f.bitIndex = 0
  len : f.bufLen.toNat = min bytes.length 255
  buf_len : f.buf.length = 16
  byte : ∀ j, j < 16 → j < bytes.length → f.buf.getD j 0#8 = bytes.getD j 0#8

/-- After a gap of at least 16 `High` the byte records of a frame are held, and no frame completes
(42_dlbus_framer.md R171, R175). -/
theorem silently_holdsFrame (n : Nat) {bytes : List Byte} {s : State} (h : s.frm.fstate = .awaitingSync)
    (hb : s.frm.buf.length = 16) (hn : 16 ≤ s.frm.syncCnt.toNat + n) (hne : bytes ≠ []) :
    ∃ g, Silently (List.replicate n .high ++ bytes.flatMap byteSymbols) s g ∧ HoldsFrame bytes g := by
  obtain ⟨g, hg, hrecv, h0, hlen, hbuf, hbyte⟩ := silently_gap_frame n bytes h hb hn hne
  exact ⟨g, hg, hrecv, h0, hlen, hbuf, hbyte⟩

/-- The raw slot of a held frame has its first 16 bytes, and zeros beyond it (42_dlbus_framer.md R177). -/
theorem HoldsFrame.completedSlot_getD {bytes : List Byte} {f : Framer} (hf : HoldsFrame bytes f)
    (slot : RawSlot) {j : Nat} (hj : j < 16) :
    (completedSlot Config.dlrx f slot).raw.getD j 0#8 = bytes.getD j 0#8 := by
  rw [Machine.completedSlot_getD, hf.len]
  by_cases hlt : j < bytes.length
  · rw [if_pos (by omega), hf.byte j hj hlt]
  · rw [if_neg (by omega), List.getD_eq_default _ _ (by omega)]

/-- A `High` completes the held frame, and what it completes is the frame (42_dlbus_framer.md R177). -/
theorem HoldsFrame.framesOf_high {bytes : List Byte} {s : State} (hf : HoldsFrame bytes s.frm)
    (h16 : bytes.length ≤ 16) (ys : List Symbol) :
    framesOf (.high :: ys) s = bytes :: framesOf ys (complete Config.dlrx s) :=
  framesOf_completes ys hf.receiving hf.at_boundary bytes (by rw [hf.len]; omega) h16
    fun j hj => hf.byte j (by omega) hj

/-- A frame on the link is one `High`, and then the rest of its gap and its byte records. -/
theorem frameSymbols_eq_cons (bytes : List Byte) :
    frameSymbols bytes = .high :: (List.replicate 15 .high ++ bytes.flatMap byteSymbols) := rfl

/-- With a frame held, the first `High` of what follows completes it, and counts for the next one's gap
(42_dlbus_framer.md R177, R178). -/
theorem framesOf_of_holdsFrame (frames : List (List Byte)) {bytes : List Byte} {s : State}
    (hf : HoldsFrame bytes s.frm) (h16 : bytes.length ≤ 16)
    (hlen : ∀ f ∈ frames, 1 ≤ f.length ∧ f.length ≤ 16) :
    framesOf (frames.flatMap frameSymbols ++ [.high]) s = bytes :: frames := by
  induction frames generalizing bytes s with
  | nil => exact hf.framesOf_high h16 []
  | cons f fs ih =>
    obtain ⟨⟨hf1, hf16⟩, hfs⟩ := List.forall_mem_cons.mp hlen
    have hfrm := complete_frm s
    obtain ⟨g, hg, hheld⟩ := silently_holdsFrame 15 (s := complete Config.dlrx s)
      (by rw [hfrm]) (by rw [hfrm]; exact hf.buf_len) (by rw [hfrm]; exact le_rfl) (List.length_pos_iff.mp hf1)
    rw [List.flatMap_cons, List.append_assoc, frameSymbols_eq_cons, List.cons_append,
      hf.framesOf_high h16, hg.2, ih hheld hf16 hfs]

/-- Settles O30: the first frame is held after its gap; each later `High` that completes one opens the next. -/
theorem framerReassemblesTheStream : Obligations.FramerReassemblesTheStream := by
  intro s frames h hb hlen
  cases frames with
  | nil =>
    have hgap : framer Config.dlrx .high s =
        { s with frm := { s.frm with syncCnt := satSucc s.frm.syncCnt } } := framer_of_awaiting .high h
    simp [framesOf, hgap]
  | cons f fs =>
    obtain ⟨⟨hf1, hf16⟩, hfs⟩ := List.forall_mem_cons.mp hlen
    obtain ⟨g, hg, hheld⟩ :=
      silently_holdsFrame 16 h hb (Nat.le_add_left 16 _) (List.length_pos_iff.mp hf1)
    rw [List.flatMap_cons, List.append_assoc, frameSymbols, hg.2]
    exact framesOf_of_holdsFrame fs hheld hf16 hfs

/-- A stream handed to the framer in two parts. -/
theorem runFramer_append (xs ys : List Symbol) (s : State) :
    runFramer (xs ++ ys) s = runFramer ys (runFramer xs s) := List.foldl_append

/-- Settles O31: the frame is held after its gap, and the `High` completes it. -/
theorem frameOfAnyLengthCompletesOnce : Obligations.FrameOfAnyLengthCompletesOnce := by
  intro s n bytes h hb hn hne t
  obtain ⟨g, ⟨hrun, -⟩, hheld⟩ := silently_holdsFrame n h hb hn hne
  have ht : t = complete Config.dlrx { s with frm := g } :=
    calc t = runFramer [.high] { s with frm := g } := (runFramer_append ..).trans (by rw [hrun])
      _ = complete Config.dlrx { s with frm := g } := framer_completes hheld.receiving hheld.at_boundary
  rw [ht, complete_cnt_frames, complete_rawSlot, complete_frm]
  exact ⟨rfl, rfl, hheld.len, fun j hj => hheld.completedSlot_getD s.rawSlot hj, rfl, rfl⟩

end Sys2Proof.Machine

/-! Family 43_uvr42_parser: the checks in their order, the published snapshot and the rejected frame
(43_uvr42_parser.md R200 to R209). -/

namespace Sys2Proof.Machine

/-- An output of the flags byte is its place's bit of byte 9 (43_uvr42_parser.md R205). -/
theorem outBit_iff_and_twoPow_ne_zero (raw : List Byte) {k : Nat} (hk : k < 8) :
    outBit raw k = true ↔ raw.getD 9 0#8 &&& BitVec.twoPow 8 k ≠ 0 :=
  getLsbD_iff_and_twoPow_ne_zero hk _

/-- Settles O33: the checks in their order. -/
theorem parseChecksSizeDeviceRange : Obligations.ParseChecksSizeDeviceRange := by
  intro s
  rw [parse_res, parseCode_eq]

/-- Settles O34: the frame's code is `OK`, and the snapshot it publishes is the one of R207. -/
theorem goodFramePublishesItsDecoding : Obligations.GoodFramePublishesItsDecoding := by
  intro s hlen hdev hrange
  have hok : parseCode Config.dlrx s.rawSlot = .ok :=
    parseCode_of_goodFrame hlen (fun _ _ => rfl) hdev hrange
  rw [parse_of_ok hok]
  exact ⟨_, rfl, rfl, rfl, rfl, rfl, rfl, rfl, outBit_iff_and_twoPow_ne_zero _ (k := 5) (by decide),
    outBit_iff_and_twoPow_ne_zero _ (k := 6) (by decide), rfl⟩

/-- Settles O35: the code of the result is the code of the checks, under which the frame is rejected. -/
theorem badFrameIsCountedAndSnapshotKept : Obligations.BadFrameIsCountedAndSnapshotKept := by
  intro s hbad code
  have hcode : code = parseCode Config.dlrx s.rawSlot := congrArg Result.code (parse_res s)
  rw [hcode]
  exact parse_of_not_ok (hcode ▸ hbad)

end Sys2Proof.Machine

/-! Family 44_host_interface: the register writes, restart, and that every row completes (44_host_interface.md
R230 to R237; 60_exceptions.md R260, R272). -/

namespace Sys2Proof.Machine

open Sys2Proof.Safety

/-! ### The dispatch of a register write -/

/-- A write at 0x04 is the `CTRL` write of the low three data bits (44_host_interface.md R233). -/
theorem regWrite_ctrl (d : RegWord) (s : State) : regWrite 1#6 d s = ctrlWrite (d.extractLsb' 0 3) s := rfl

/-- A write at 0x08 restarts the block, or not, by data bit 0 (44_host_interface.md R235). -/
theorem regWrite_cmd (d : RegWord) (s : State) :
    regWrite 2#6 d s = if d.getLsbD 0 then restart s else s := rfl

/-- A write at 0x0C acknowledges the flags of data bits 8 to 12 (44_host_interface.md R234). -/
theorem regWrite_status (d : RegWord) (s : State) : regWrite 3#6 d s = statusWrite (d.extractLsb' 8 5) s := rfl

/-- A write at any other offset has no effect (44_host_interface.md R236). -/
theorem regWrite_other {n : BitVec 6} (hctrl : n ≠ 1#6) (hcmd : n ≠ 2#6) (hstatus : n ≠ 3#6) (d : RegWord)
    (s : State) : regWrite n d s = s := by
  rw [← BitVec.toNat_ne_iff_ne] at hctrl hcmd hstatus
  unfold regWrite
  split
  case h_1 h => exact absurd (Nat.mul_left_cancel four_pos h) hctrl
  case h_2 h => exact absurd (Nat.mul_left_cancel four_pos h) hstatus
  case h_3 h => exact absurd (Nat.mul_left_cancel four_pos h) hcmd
  case h_4 => rfl

/-- Bit 0 of the data of a host word is bit 0 of the word (30_encoding.md R105). -/
theorem getLsbD_zero_hostData (w : BitVec 41) : (w.extractLsb' 0 32).getLsbD 0 = w.getLsbD 0 := by
  simp

/-- A completed access shows `HOST_READY` and no word (20_memory.md R80). -/
theorem beginHost_eq (s : State) : beginHost s = { s with out := hostOutputs none } := rfl

/-- A host word with `HOST_WE` set is performed as the register write of its offset and data
(44_host_interface.md R232; 30_encoding.md R114). -/
theorem exec_decodeHost_of_write {w : BitVec 41} (hw : w.getLsbD 40 = true) (s : State) :
    exec (decodeHost w) s = .next (regWrite (w.extractLsb' 34 6) (w.extractLsb' 0 32) (beginHost s)) := by
  rw [decodeHost_of_write hw]
  by_cases hctrl : w.extractLsb' 34 6 = 1#6
  · rw [if_pos hctrl, hctrl, regWrite_ctrl, BitVec.extractLsb'_extractLsb'_of_le (by decide), exec_wrCtrl]
  by_cases hcmd : w.extractLsb' 34 6 = 2#6
  · rw [if_neg hctrl, if_pos hcmd, hcmd, regWrite_cmd, getLsbD_zero_hostData]
    cases w.getLsbD 0 <;> rfl
  by_cases hstatus : w.extractLsb' 34 6 = 3#6
  · rw [if_neg hctrl, if_neg hcmd, if_pos hstatus, hstatus, regWrite_status,
      BitVec.extractLsb'_extractLsb'_of_le (by decide), exec_wrStatusAck]
  · rw [if_neg hctrl, if_neg hcmd, if_neg hstatus, regWrite_other hctrl hcmd hstatus, exec_wrOther]

/-- Settles O38: `HOST_WE` tells a read from a write, and each is what its word is decoded to. -/
theorem hostWordIsReadOrRegisterWrite : Obligations.HostWordIsReadOrRegisterWrite := by
  intro s w a d
  change exec (decodeHost w) s = _
  cases hw : w.getLsbD 40 with
  | false => rw [decodeHost_of_read hw, exec_rd, if_neg Bool.false_ne_true]; rfl
  | true => rw [exec_decodeHost_of_write hw, if_pos rfl, beginHost_eq]

/-! ### The rows one by one -/

/-- Settles O40: the two rows as `exec` performs them; a flag written as 1 is cleared, else it stays. -/
theorem ctrlAndStatusWritesFollowTheirRules : Obligations.CtrlAndStatusWritesFollowTheirRules := by
  refine fun s => ⟨fun d => exec_wrCtrl d s, fun e => ?_⟩
  simp only [exec_wrStatusAck, beginHost_eq, statusWrite, Bool.if_false_left, Bool.decide_eq_true,
    Bool.and_comm]

/-- Settles O41: the row is the restart of a completed access. -/
theorem restartFollowsItsRule : Obligations.RestartFollowsItsRule := exec_wrCmdRestart

/-- Settles O42: both rows complete the access and do no more, whatever the word number. -/
theorem otherWritesHaveNoEffect : Obligations.OtherWritesHaveNoEffect :=
  fun s => ⟨exec_wrCmdNop s, fun a _ => exec_wrOther a s⟩

/-- Settles O47, row by row: each row but the refused one names its next state. -/
theorem everyRowCompletesInEveryState : Obligations.EveryRowCompletesInEveryState := by
  intro s i hi
  cases i
  case fe ts => exact ⟨_, exec_fe ts s⟩
  case re ts => exact ⟨_, exec_re ts s⟩
  case drop => exact ⟨_, exec_drop s⟩
  case rsvdEdge => exact ⟨_, exec_rsvdEdge s⟩
  case symLow => exact ⟨_, exec_symLow s⟩
  case symHigh => exact ⟨_, exec_symHigh s⟩
  case symInvalid => exact ⟨_, exec_symInvalid s⟩
  case symRsvd => exact absurd rfl hi
  case rd a => exact ⟨_, exec_rd a s⟩
  case wrCtrl d => exact ⟨_, exec_wrCtrl d s⟩
  case wrCmdRestart => exact ⟨_, exec_wrCmdRestart s⟩
  case wrCmdNop => exact ⟨_, exec_wrCmdNop s⟩
  case wrStatusAck e => exact ⟨_, exec_wrStatusAck e s⟩
  case wrOther a => exact ⟨_, exec_wrOther a s⟩

end Sys2Proof.Machine

/-! Family 60_exceptions: a step at ports that offer no transaction (60_exceptions.md R280, R117). -/

namespace Sys2Proof.Machine

/-- A step at ports with nothing to decode goes where the ports settle. -/
theorem step_of_settled {s t : State} (h : fetch s = .settled t) : step s = .next t := by
  simp only [step, h]

/-- With nothing offered, in reset or not, the ports settle with every strobe low (60_exceptions.md R280). -/
theorem fetch_nil {s : State} (hi : s.env.inputs = []) : fetch s = .settled (quiet s) := by
  cases hr : s.env.rstN with
  | true => simp [fetch, hr, hi]
  | false => simp [fetch, fetchInReset, hr, hi]

/-- A change of `WALL_TIME` that heads the schedule is taken, in reset or not: it is no transaction, so in reset
nothing waits before it (70_reset_and_hazards.md R290). -/
theorem fetch_wall {s : State} {v : BitVec 64} {rest : List Input}
    (hi : s.env.inputs = .wall v :: rest) : fetch s = .settled (driveWall v (withInputs rest s)) := by
  cases hr : s.env.rstN with
  | true => simp [fetch, hr, hi]
  | false => simp [fetch, fetchInReset, Input.isTransaction, hr, hi]

/-- Settles O8: what the ports settle to with nothing offered, and with `WALL_TIME` driven. -/
theorem nothingOfferedHoldsTheState : Obligations.NothingOfferedHoldsTheState :=
  ⟨fun _ hi => step_of_settled (fetch_nil hi), fun _ _ _ hi => step_of_settled (fetch_wall hi)⟩

end Sys2Proof.Machine

/-! Family 70_reset_and_hazards: what every step keeps of the framer, the slots and the decoder
(70_reset_and_hazards.md R307). -/

namespace Sys2Proof.Machine

open Sys2Proof.Safety

/-! ### What a step can do -/

/-- Everything a step can do: the ports settle, with the elements kept or reset, or a word is performed; the input
side is then `env`, which gains no symbol item. -/
theorem step_cases {s t : State} (h : step s = .next t) :
    ∃ env : Env, t.env = env ∧ (∀ x ∈ env.inputs, isSymbolItem x = true → x ∈ s.env.inputs) ∧
      (t = { s with out := Outputs.silent, env := env } ∨ t = { State.reset with env := env } ∨
        ∃ w : PortWord, (w.port = .sym → .word w ∈ s.env.inputs) ∧
          exec (decode w) { s with env := env } = .next t) := by
  rcases step_next_cases h with hf | ⟨w, u, hf, he⟩
  · obtain ⟨env, hin, rfl | rfl⟩ := settled_cases hf
    · exact ⟨env, rfl, fun x hx _ => hin x hx, .inl rfl⟩
    · exact ⟨env, rfl, fun x hx _ => hin x hx, .inr (.inl rfl)⟩
  · obtain ⟨env, rfl, hin, hsym⟩ := offered_cases hf
    exact ⟨env, exec_env he, hin, .inr (.inr ⟨w, hsym, he⟩)⟩

/-! ### What a row does to the framer and the slots -/

/-- All that the framer works on is the same in both states: its own state, the slots, the result, and the counters
it and the parser count. -/
structure SameToFramer (s t : State) : Prop where
  frm : t.frm = s.frm
  rawSlot : t.rawSlot = s.rawSlot
  snap : t.snap = s.snap
  res : t.res = s.res
  framing : t.cnt.framing = s.cnt.framing
  frames : t.cnt.frames = s.cnt.frames
  ok : t.cnt.ok = s.cnt.ok
  size : t.cnt.size = s.cnt.size
  device : t.cnt.device = s.cnt.device
  temp : t.cnt.temp = s.cnt.temp

/-- The outputs and the input side are nothing to the framer. -/
theorem sameToFramer_ports (s : State) (o : Outputs) (env : Env) :
    SameToFramer s { s with out := o, env := env } :=
  ⟨rfl, rfl, rfl, rfl, rfl, rfl, rfl, rfl, rfl, rfl⟩

/-- The decoder's part of an edge-port row is nothing to the framer. -/
theorem sameToFramer_edgeLeaves (y : Option Symbol) (d : Decoder) (b e : Bool) (s : State) :
    SameToFramer s (edgeLeaves y d b e s) :=
  ⟨rfl, rfl, rfl, rfl, rfl, rfl, rfl, rfl, rfl, rfl⟩

/-- The row that presents a symbol from outside (30_encoding.md R102). -/
def symbolRow : Symbol → Instr
  | .low => .symLow
  | .high => .symHigh
  | .invalid => .symInvalid

/-- Everything a row can do to the framer and the slots: nothing, or restart, or hand the framer one symbol, which
is the row's own or on the tap (30_encoding.md R103, R104). -/
theorem exec_framer_cases {i : Instr} {s t : State} (h : exec i s = .next t) :
    SameToFramer s t ∨ (i = .wrCmdRestart ∧ t = restart (beginHost s)) ∨
      ∃ y u, SameToFramer s u ∧ t = framer Config.dlrx y u ∧
        (i = symbolRow y ∨ t.out.symTap = some y.code) := by
  rcases port_cases i with hp | hp | hp
  · obtain ⟨y, d, b, e, -, rfl⟩ := exec_edge_next hp h
    have hsame := sameToFramer_edgeLeaves y d b e s
    cases y with
    | none => exact .inl hsame
    | some y =>
      exact .inr (.inr ⟨y, _, hsame, rfl, .inr (congrArg Outputs.symTap (framerPart_out (some y) _))⟩)
  · obtain ⟨y, hy, rfl⟩ := exec_sym_next hp h
    refine .inr (.inr ⟨y, _, sameToFramer_ports s Outputs.silent s.env, rfl, .inl ?_⟩)
    rcases hy with ⟨hi, rfl⟩ | ⟨hi, rfl⟩ | ⟨hi, rfl⟩ <;> exact hi
  · by_cases hi : i = .wrCmdRestart
    · subst hi
      exact .inr (.inl ⟨rfl, (Host.Outcome.next.inj h).symm⟩)
    · obtain ⟨hraw, hsnap, hres, hcnt⟩ := exec_host_slots hp h
      obtain ⟨-, hfrm⟩ := exec_host_stages hp h hi
      refine .inl ⟨hfrm, hraw, hsnap, hres, ?_, ?_, ?_, ?_, ?_, ?_⟩ <;> rw [hcnt]

/-! ### The framer's invariant -/

theorem SameToFramer.framerInv {s t : State} (h : SameToFramer s t) (hs : FramerInv s) : FramerInv t :=
  framerInv_congr h.frm h.rawSlot h.snap h.res h.frames h.ok h.size h.device h.temp hs

/-- Restart empties the framer and leaves the slots (44_host_interface.md R237). -/
theorem restart_framerInv {s : State} (h : FramerInv s) : FramerInv (restart s) := by
  obtain ⟨hbuf, hraw, htail, -, -, ⟨h1, h2, h3, h4, h5, h6⟩⟩ := h
  exact ⟨hbuf, hraw, htail, fun _ => ⟨rfl, rfl⟩, nofun, ⟨h1, h2, h3, h4, h5, h6⟩⟩

/-- Every row keeps the framer's invariant. -/
theorem exec_framerInv {i : Instr} {s t : State} (h : exec i s = .next t) (hs : FramerInv s) :
    FramerInv t := by
  rcases exec_framer_cases h with hsame | ⟨-, rfl⟩ | ⟨y, u, hsame, rfl, -⟩
  · exact hsame.framerInv hs
  · exact restart_framerInv ((sameToFramer_ports s _ s.env).framerInv hs)
  · exact framer_keeps y (hsame.framerInv hs)

/-- Settles O57, by what a step can do. -/
theorem everyStepKeepsTheFramerInvariant : Obligations.EveryStepKeepsTheFramerInvariant := by
  intro s t hs h
  obtain ⟨env, -, -, rfl | rfl | ⟨w, -, he⟩⟩ := step_cases h
  · exact (sameToFramer_ports s _ env).framerInv hs
  · exact (sameToFramer_ports State.reset _ env).framerInv reset_framerInv
  · exact exec_framerInv he ((sameToFramer_ports s s.out env).framerInv hs)

/-! ### The block's invariant -/

/-- Every row keeps the decoder's invariant. -/
theorem exec_decoderInv {i : Instr} {s t : State} (h : exec i s = .next t) (hs : DecoderInv s.dec) :
    DecoderInv t.dec := by
  rcases port_cases i with hp | hp | hp
  · obtain ⟨y, d, b, e, hm, rfl⟩ := exec_edge_next hp h
    rw [framerPart_dec]
    exact edgeMove_keeps hm hs
  · obtain ⟨y, -, rfl⟩ := exec_sym_next hp h
    rwa [framer_dec]
  · by_cases hi : i = .wrCmdRestart
    · subst hi
      obtain rfl := Host.Outcome.next.inj h
      exact restart_keeps hs
    · rwa [(exec_host_stages hp h hi).1]

/-- Out of `Synchronized` the framer awaits sync and has counted no `High` (41_manchester_decoder.md R140). -/
def UnsyncedQuiet (s : State) : Prop :=
  s.dec.dstate ≠ .synchronized → s.frm.fstate = .awaitingSync ∧ s.frm.syncCnt = 0

/-- A decoder move out of `Synchronized` hands on `Invalid`; every other move that ends out of it begins out of it,
and hands on nothing (41_manchester_decoder.md R137, R140). -/
theorem EdgeMove.of_unsynced {i : Instr} {d d' : Decoder} {y : Option Symbol} (hm : EdgeMove i d y d')
    (hd : d'.dstate ≠ .synchronized) : y = some .invalid ∨ y = none ∧ d.dstate ≠ .synchronized := by
  cases hm
  case violation => exact .inl rfl
  case dropSynchronized => exact .inl rfl
  case synced => exact absurd rfl hd
  case emitted hs => exact absurd hs hd
  case calibrated hs _ _ => exact .inr ⟨rfl, by simp [hs]⟩
  all_goals exact .inr ⟨rfl, hd⟩

/-- `Invalid` leaves the framer awaiting sync with no `High` counted (42_dlbus_framer.md R171, R172). -/
theorem framer_invalid_awaits (s : State) :
    (framer Config.dlrx .invalid s).frm.fstate = .awaitingSync ∧
      (framer Config.dlrx .invalid s).frm.syncCnt = 0 := by
  rw [framer_invalid]
  cases hf : s.frm.fstate <;> simp [hf]

/-- Every row at the block's own ports leaves the framer quiet out of `Synchronized`. -/
theorem exec_unsyncedQuiet {i : Instr} {s t : State} (hp : i.port ≠ .sym) (h : exec i s = .next t)
    (hs : UnsyncedQuiet s) : UnsyncedQuiet t := by
  rcases port_cases i with hp' | hp' | hp'
  · obtain ⟨y, d, b, e, hm, rfl⟩ := exec_edge_next hp' h
    intro hd
    rw [framerPart_dec] at hd
    rcases hm.of_unsynced hd with rfl | ⟨rfl, hd'⟩
    · exact framer_invalid_awaits _
    · exact hs hd'
  · exact absurd hp' hp
  · by_cases hi : i = .wrCmdRestart
    · subst hi
      obtain rfl := Host.Outcome.next.inj h
      exact fun _ => ⟨rfl, rfl⟩
    · obtain ⟨hdec, hfrm⟩ := exec_host_stages hp' h hi
      rwa [UnsyncedQuiet, hdec, hfrm]

/-- A framer that is quiet out of `Synchronized` receives only in it. -/
theorem blockInv_of_unsyncedQuiet {s : State} (hf : FramerInv s) (hd : DecoderInv s.dec)
    (hq : UnsyncedQuiet s) (hin : ∀ x ∈ s.env.inputs, isSymbolItem x = false) : BlockInv s where
  framer := hf
  decoder := hd
  receiving_synced hrecv := by
    by_contra hsync
    simp [hq hsync] at hrecv
  unsynced_quiet := hq
  no_symbols := hin

/-- Settles O56. -/
theorem resetMeetsTheBlockInvariant : Obligations.ResetMeetsTheBlockInvariant :=
  blockInv_of_unsyncedQuiet reset_framerInv reset_decoderInv (fun _ => ⟨rfl, rfl⟩) nofun

/-- Settles O58: a schedule with no symbol item offers no symbol word, so each row is of the block's own ports. -/
theorem everyStepKeepsTheBlockInvariant : Obligations.EveryStepKeepsTheBlockInvariant := by
  intro s t hs h
  have hf : FramerInv t := everyStepKeepsTheFramerInvariant s t hs.framer h
  obtain ⟨env, henv, hin, ht⟩ := step_cases h
  have hsched : ∀ x ∈ t.env.inputs, isSymbolItem x = false := fun x hx => by
    by_contra hx'
    exact hx' (hs.no_symbols x (hin x (henv ▸ hx) (by simpa using hx')))
  obtain rfl | rfl | ⟨w, hw, he⟩ := ht
  · exact blockInv_of_unsyncedQuiet hf hs.decoder hs.unsynced_quiet hsched
  · exact blockInv_of_unsyncedQuiet hf reset_decoderInv (fun _ => ⟨rfl, rfl⟩) hsched
  · have hport : (decode w).port ≠ .sym := by
      rw [(everyWordIsARowOfItsFormat w).2]
      intro hsym
      have := hs.no_symbols _ (hw hsym)
      cases w <;> simp [PortWord.port, isSymbolItem] at hsym this
    exact blockInv_of_unsyncedQuiet hf (exec_decoderInv he hs.decoder)
      (exec_unsyncedQuiet hport he hs.unsynced_quiet) hsched

/-! ### The slots against the counts -/

/-- A count that is not about to wrap is not 0 after it has counted. -/
theorem add_one_ne_zero_of_lt {c : BitVec 32} (h : c.toNat + 1 < 2 ^ 32) : c + 1 ≠ 0 := by
  rw [← BitVec.toNat_ne_iff_ne, BitVec.toNat_add_of_lt h]
  exact Nat.succ_ne_zero _

theorem SameToFramer.slotsAgree {s t : State} (h : SameToFramer s t) (hs : SlotsAgree s) : SlotsAgree t :=
  ⟨by rw [h.snap, h.ok]; exact hs.valid_iff, by rw [h.res, h.rawSlot]; exact hs.none_iff⟩

/-- One symbol keeps the slots agreeing with the counts: only a published frame makes the snapshot valid or counts in
`CNT_OK`, and every completion names a result and counts in `RAW_SEQ` (42_dlbus_framer.md R177). -/
theorem framer_slotsAgree (y : Symbol) {s : State} (hs : SlotsAgree s) (hok : s.cnt.ok.toNat + 1 < 2 ^ 32)
    (hseq : s.rawSlot.rawSeq.toNat + 1 < 2 ^ 32) : SlotsAgree (framer Config.dlrx y s) := by
  obtain ⟨hvalid, hnone⟩ := hs
  rcases framer_outcome y s with
    ⟨hc, -, hr, hn, he⟩ | ⟨hc, -, hr, hn, he⟩ | ⟨hr, -, ⟨hcode, -, hv, -, hc⟩ | ⟨-, hcode, hn, -, hc⟩⟩
  · exact ⟨by rwa [hc, hn], by rwa [hr, he]⟩
  · exact ⟨by rwa [hc, hn], by rwa [hr, he]⟩
  · refine ⟨iff_of_true hv ?_, iff_of_false (by simp [hcode]) ?_⟩
    · rw [hc]; exact add_one_ne_zero_of_lt hok
    · rw [hr]; exact add_one_ne_zero_of_lt hseq
  · refine ⟨?_, iff_of_false hcode ?_⟩
    · rcases hc with hc | hc | hc <;> rwa [hc, hn]
    · rw [hr]; exact add_one_ne_zero_of_lt hseq

/-- Every row keeps the slots agreeing with the counts, short of a wrap. -/
theorem exec_slotsAgree {i : Instr} {s t : State} (h : exec i s = .next t) (hs : SlotsAgree s)
    (hok : s.cnt.ok.toNat + 1 < 2 ^ 32) (hseq : s.rawSlot.rawSeq.toNat + 1 < 2 ^ 32) : SlotsAgree t := by
  rcases exec_framer_cases h with hsame | ⟨-, rfl⟩ | ⟨y, u, hsame, rfl, -⟩
  · exact hsame.slotsAgree hs
  · exact ⟨hs.valid_iff, hs.none_iff⟩
  · exact framer_slotsAgree y (hsame.slotsAgree hs) (by rwa [hsame.ok]) (by rwa [hsame.rawSlot])

theorem reset_slotsAgree : SlotsAgree State.reset := ⟨by simp, by simp⟩

/-- Settles O60: `RAW_SEQ` is `CNT_FRAMES` under the framer's invariant, so neither count wraps. -/
theorem everyStepKeepsSlotsAgreeing : Obligations.EveryStepKeepsSlotsAgreeing := by
  intro s t hf hs hok hframes h
  have hseq : s.rawSlot.rawSeq.toNat + 1 < 2 ^ 32 := by rwa [hf.counters.raw_frames]
  obtain ⟨env, -, -, rfl | rfl | ⟨w, -, he⟩⟩ := step_cases h
  · exact (sameToFramer_ports s _ env).slotsAgree hs
  · exact (sameToFramer_ports State.reset _ env).slotsAgree reset_slotsAgree
  · exact exec_slotsAgree he ((sameToFramer_ports s s.out env).slotsAgree hs) hok hseq

/-! ### A run from reset -/

/-- The framer's invariant and agreeing slots, with at most `k` frames counted. -/
structure AgreesWithin (k : Nat) (s : State) : Prop where
  framer : FramerInv s
  slots : SlotsAgree s
  ok_le : s.cnt.ok.toNat ≤ k
  frames_le : s.cnt.frames.toNat ≤ k

/-- A counter that stays or counts one is at most one higher. -/
theorem toNat_le_succ_of_counts {c d : BitVec 32} {k : Nat} (h : d = c ∨ d = c + 1) (hc : c.toNat ≤ k) :
    d.toNat ≤ k + 1 := by
  rcases h with rfl | rfl
  · omega
  · have := BitVec.toNat_add c 1#32
    rw [BitVec.ofNat_eq_ofNat, this, BitVec.toNat_ofNat]
    omega

/-- A step counts `CNT_OK` and `CNT_FRAMES` at most once each, and resets them else. -/
theorem step_counts_le {s t : State} {k : Nat} (h : step s = .next t) (hok : s.cnt.ok.toNat ≤ k)
    (hframes : s.cnt.frames.toNat ≤ k) : t.cnt.ok.toNat ≤ k + 1 ∧ t.cnt.frames.toNat ≤ k + 1 := by
  obtain ⟨env, -, -, rfl | rfl | ⟨w, -, he⟩⟩ := step_cases h
  · exact ⟨Nat.le_succ_of_le hok, Nat.le_succ_of_le hframes⟩
  · exact ⟨Nat.zero_le _, Nat.zero_le _⟩
  · obtain ⟨-, -, -, hf, ho, -⟩ := countersStayOrCountOne _ _ _ he
    exact ⟨toNat_le_succ_of_counts ho hok, toNat_le_succ_of_counts hf hframes⟩

theorem AgreesWithin.step {k : Nat} {s t : State} (hs : AgreesWithin k s) (hk : k + 1 < 2 ^ 32)
    (h : Machine.step s = .next t) : AgreesWithin (k + 1) t := by
  obtain ⟨hok, hframes⟩ := step_counts_le h hs.ok_le hs.frames_le
  have hlt : ∀ {n : Nat}, n ≤ k → n + 1 < 2 ^ 32 := fun hn => (Nat.succ_le_succ hn).trans_lt hk
  exact ⟨everyStepKeepsTheFramerInvariant s t hs.framer h,
    everyStepKeepsSlotsAgreeing s t hs.framer hs.slots (hlt hs.ok_le) (hlt hs.frames_le) h, hok, hframes⟩

/-- A run keeps the slots agreeing while its steps and the frames counted before it are fewer than 2^32. -/
theorem AgreesWithin.run {n k : Nat} {s t : State} (hs : AgreesWithin k s) (hk : k + n < 2 ^ 32)
    (h : Host.Core.run core n s = .next t) : AgreesWithin (k + n) t := by
  induction n generalizing k s with
  | zero => exact Host.Outcome.next.inj h ▸ hs
  | succ n ih =>
    rw [run_succ_eq core n s, show core.step s = Machine.step s from rfl] at h
    cases hu : Machine.step s with
    | next u =>
      rw [hu] at h
      rw [← Nat.add_assoc, Nat.add_right_comm] at hk ⊢
      exact ih (hs.step (by omega) hu) hk h
    | fault r => rw [hu] at h; exact nomatch h
    | refused r => rw [hu] at h; exact nomatch h

/-- Settles O59: a run from reset, by its steps. -/
theorem snapshotValidExactlyWhenCounted : Obligations.SnapshotValidExactlyWhenCounted := by
  intro n schedule t hn h
  have hports := sameToFramer_ports State.reset State.reset.out { State.reset.env with inputs := schedule }
  have hstart : AgreesWithin 0 _ :=
    ⟨hports.framerInv reset_framerInv, hports.slotsAgree reset_slotsAgree, le_rfl, le_rfl⟩
  obtain ⟨hvalid, hnone⟩ := (hstart.run (n := n) (by omega) h).slots
  exact ⟨hvalid, hnone⟩

end Sys2Proof.Machine

/-! Family 70_reset_and_hazards: the transitions of the two stages, the sequence words, and the tolerances of
`Synchronized` (70_reset_and_hazards.md R300, R308, R310). -/

namespace Sys2Proof.Machine

open Sys2Proof.Safety

/-! ### The transitions of `DSTATE` and `FSTATE` -/

/-- The state changes of a decoder move, and what makes them (70_reset_and_hazards.md R308). -/
theorem EdgeMove.transition {i : Instr} {d d' : Decoder} {y : Option Symbol} (hm : EdgeMove i d y d') :
    d'.dstate = d.dstate ∨
      (d.dstate = .discoverClock ∧ d'.dstate = .synchronizing ∧ d.dcPrevValid = true ∧
        d.sampleCnt + 1 = 500) ∨
      (d.dstate = .synchronizing ∧ d'.dstate = .synchronized ∧ ∃ ts, i = .fe ts ∧ edgeClass ts d = 2) ∨
      (d.dstate = .synchronized ∧ d'.dstate = .synchronizing ∧ y = some .invalid) := by
  cases hm
  case calibrated hd hp hn => exact .inr (.inl ⟨hd, rfl, hp, hn⟩)
  case synced ts hi _ hd _ hc => exact .inr (.inr (.inl ⟨hd, rfl, ts, hi, hc⟩))
  case violation hd => exact .inr (.inr (.inr ⟨hd, rfl, rfl⟩))
  case dropSynchronized hd => exact .inr (.inr (.inr ⟨hd, rfl, rfl⟩))
  all_goals exact .inl rfl

/-- The state changes of the framer on one symbol, and what makes them (70_reset_and_hazards.md R308). -/
theorem framer_transition (y : Symbol) (s : State) :
    let t := framer Config.dlrx y s
    t.frm.fstate = s.frm.fstate ∨
      (s.frm.fstate = .awaitingSync ∧ t.frm.fstate = .receiving ∧ 16 ≤ s.frm.syncCnt.toNat ∧ y = .low) ∨
      (s.frm.fstate = .receiving ∧ t.frm.fstate = .awaitingSync ∧
        (y = .invalid ∨ (t.cnt.framing = s.cnt.framing + 1 ∧ s.frm.bitIndex = 9) ∨
          (t.cnt.frames = s.cnt.frames + 1 ∧ s.frm.bitIndex = 0))) := by
  intro t
  rcases framer_cases y s with ⟨f, e, hf⟩ | ⟨e, hr, h9, -⟩ | ⟨e, hr, h0, -⟩
  · rw [show t = _ from e]
    rcases hf with hf | ⟨ha, hr, hy, hc⟩ | ⟨hr, ha, hy⟩
    · exact .inl hf
    · exact .inr (.inl ⟨ha, hr, hc, hy⟩)
    · exact .inr (.inr ⟨hr, ha, .inl hy⟩)
  · rw [show t = _ from e, framingError_eq]
    exact .inr (.inr ⟨hr, rfl, .inr (.inl ⟨rfl, h9⟩)⟩)
  · rw [show t = _ from e, complete_frm, complete_cnt_frames]
    exact .inr (.inr ⟨hr, rfl, .inr (.inr ⟨rfl, h0⟩)⟩)

/-- Settles O52: the decoder by its moves, and the framer by the symbol a row hands it. -/
theorem stageTransitionsAreTheTables : Obligations.StageTransitionsAreTheTables := by
  refine fun s t i h => ⟨?decoder, ?framer⟩
  case decoder =>
    rcases port_cases i with hp | hp | hp
    · obtain ⟨y, d, b, e, hm, rfl⟩ := exec_edge_next hp h
      rw [framerPart_dec, framerPart_out]
      rcases hm.transition with hs | hc | hs | ⟨hd, hd', rfl⟩
      · exact .inl hs
      · exact .inr (.inr (.inl hc))
      · exact .inr (.inr (.inr (.inl hs)))
      · exact .inr (.inr (.inr (.inr ⟨hd, hd', rfl⟩)))
    · obtain ⟨y, -, rfl⟩ := exec_sym_next hp h
      simp
    · by_cases hi : i = .wrCmdRestart
      · subst hi
        obtain rfl := Host.Outcome.next.inj h
        exact .inr (.inl ⟨rfl, rfl⟩)
      · exact .inl (congrArg Decoder.dstate (exec_host_stages hp h hi).1)
  case framer =>
    rcases exec_framer_cases h with hsame | ⟨hi, rfl⟩ | ⟨y, u, hsame, rfl, hy⟩
    · exact .inl (congrArg Framer.fstate hsame.frm)
    · exact .inr (.inl ⟨hi, rfl⟩)
    · rw [← hsame.frm, ← hsame.framing, ← hsame.frames]
      rcases framer_transition y u with hs | ⟨ha, hr, hc, rfl⟩ | ⟨hr, ha, hcause⟩
      · exact .inl hs
      · exact .inr (.inr (.inl ⟨ha, hr, hc, hy⟩))
      · refine .inr (.inr (.inr ⟨hr, ha, hcause.imp_left ?_⟩))
        rintro rfl
        exact hy

/-! ### The sequence words and their groups -/

/-- Counting moves a sequence word. -/
theorem seq_succ_ne (c : BitVec 32) : c + 1 ≠ c := by simp

/-- One symbol that leaves a sequence word leaves what it counts (70_reset_and_hazards.md R300). -/
theorem framer_sequences (y : Symbol) (s : State) :
    let t := framer Config.dlrx y s
    (t.rawSlot.rawSeq = s.rawSlot.rawSeq → t.rawSlot = s.rawSlot) ∧
      (t.snap.seq = s.snap.seq → t.snap = s.snap) ∧ (t.res.seq = s.res.seq → t.res = s.res) := by
  intro t
  rcases framer_outcome y s with
    ⟨-, -, hr, hn, he⟩ | ⟨-, -, hr, hn, he⟩ | ⟨hr, hres, ⟨-, hseq, -⟩ | ⟨-, -, hn, -⟩⟩
  · exact ⟨fun _ => hr, fun _ => hn, fun _ => he⟩
  · exact ⟨fun _ => hr, fun _ => hn, fun _ => he⟩
  all_goals
    have hraw : t.rawSlot.rawSeq = s.rawSlot.rawSeq + 1 := congrArg RawSlot.rawSeq hr
    refine ⟨fun h => absurd (hraw.symm.trans h) (seq_succ_ne _), ?_,
      fun h => absurd (hres.symm.trans h) (seq_succ_ne _)⟩
  · exact fun h => absurd (hseq.symm.trans h) (seq_succ_ne _)
  · exact fun _ => hn

/-- Every row that leaves a sequence word leaves what it counts. -/
theorem exec_sequences {i : Instr} {s t : State} (h : exec i s = .next t) :
    (t.rawSlot.rawSeq = s.rawSlot.rawSeq → t.rawSlot = s.rawSlot) ∧
      (t.snap.seq = s.snap.seq → t.snap = s.snap) ∧ (t.res.seq = s.res.seq → t.res = s.res) := by
  rcases exec_framer_cases h with hsame | ⟨-, rfl⟩ | ⟨y, u, hsame, rfl, -⟩
  · exact ⟨fun _ => hsame.rawSlot, fun _ => hsame.snap, fun _ => hsame.res⟩
  · exact ⟨fun _ => rfl, fun _ => rfl, fun _ => rfl⟩
  · rw [← hsame.rawSlot, ← hsame.snap, ← hsame.res]
    exact framer_sequences y u

/-- The words of a raw frame are read from the raw slot (20_memory.md R84). -/
theorem rawGroup_congr {s t : State} (h : t.rawSlot = s.rawSlot) : rawGroup t = rawGroup s := by
  have hread : ∀ u : State, rawGroup u = toWord u.rawSlot.rawLen ::
      [0, 1, 2, 3].map (rawDataWord u.rawSlot.raw) := fun _ => rfl
  rw [hread, hread, h]

/-- The words of a snapshot are read from the snapshot (20_memory.md R84). -/
theorem snapGroup_congr {s t : State} (h : t.snap = s.snap) : snapGroup t = snapGroup s := by
  have hread : ∀ u : State, snapGroup u =
      [u.snap.flagsView, toWord (u.snap.t2 ++ u.snap.t1), toWord (u.snap.t4 ++ u.snap.t3),
        lowWord u.snap.ts, highWord u.snap.ts] := fun _ => rfl
  rw [hread, hread, h]

/-- Settles O54: each sequence word fills its register, and its group is read from what it counts. -/
theorem sequenceWordsGuardTheirGroups : Obligations.SequenceWordsGuardTheirGroups := by
  intro s t i h
  obtain ⟨hraw, hsnap, hres⟩ := exec_sequences h
  refine ⟨fun hseq => rawGroup_congr (hraw ?_), fun hseq => snapGroup_congr (hsnap ?_), fun hseq => ?_⟩
  · exact ((toWord_self _).symm.trans hseq).trans (toWord_self _)
  · exact ((toWord_self _).symm.trans hseq).trans (toWord_self _)
  · have heq := hres (((toWord_self _).symm.trans hseq).trans (toWord_self _))
    exact congrArg (fun r : Result => toWord r.code.code) heq

/-! ### The tolerances of `Synchronized` -/

/-- Settles O21: the bands of the classes 1, 2 and 3, by the rows of the acceptance table. -/
theorem synchronizedTolerances : Obligations.SynchronizedTolerances := by
  intro ts d hT e T S
  have hband : ∀ n : Int, edgeClass ts d = n ↔ (n - 1) * T + S ≤ e ∧ e < n * T + S :=
    (intervalClassHasItsBands d.sens d.halfT e hT).1
  have h1 := hband 1
  have h2 := hband 2
  have h3 := hband 3
  have hpos : 0 < T := Int.natCast_pos.mpr hT
  refine ⟨?accepted, fun _ hlo hhi => h2.mpr (by omega), fun _ hlo hhi => h3.mpr (by omega)⟩
  case accepted =>
    rw [accepts_iff, h1, h2, h3]
    by_cases hl : d.last = 2
    · simp only [hl, ne_eq, not_true_eq_false, and_true, and_false, or_false, false_and, true_and]
      omega
    · simp only [hl, ne_eq, not_false_eq_true, and_true, and_false, false_or, false_and, true_and]
      omega

end Sys2Proof.Machine

/-! Family 70_reset_and_hazards: reset, what waits in it, and two words offered together
(70_reset_and_hazards.md R290, R291, R301). -/

namespace Sys2Proof.Machine

/-! ### A change of `RST_N` -/

/-- A change of `RST_N` that heads the schedule is taken, in reset or not: it is no transaction, so in reset nothing
waits before it (70_reset_and_hazards.md R290). -/
theorem fetch_rstN {s : State} {b : Bool} {rest : List Input} (hi : s.env.inputs = .rstN b :: rest) :
    fetch s = .settled (driveRstN b (withInputs rest s)) := by
  cases hr : s.env.rstN with
  | true => simp [fetch, hr, hi]
  | false => simp [fetch, fetchInReset, Input.isTransaction, hr, hi]

/-- A change of `RST_N` to the other level resets every element (70_reset_and_hazards.md R290; log entry 3). -/
theorem driveRstN_of_change {b : Bool} {s : State} (h : b ≠ s.env.rstN) :
    driveRstN b s = resetElements Config.dlrx { s with env := { s.env with rstN := b } } := by
  rw [driveRstN, if_neg (by simpa using h)]

/-- Settles O10: the change is taken, and the elements are those of `State.reset`. -/
theorem fallingResetClearsAnyState : Obligations.FallingResetClearsAnyState := by
  intro s rest hr hi
  rw [step_of_settled (fetch_rstN hi), driveRstN_of_change (by simp [hr])]
  rfl

/-- Settles O11: the registers by the reset law, the elements by evaluation. -/
theorem resetStateIsTheResetState : Obligations.ResetStateIsTheResetState :=
  ⟨regRead_resetElements State.reset, rfl, rfl, rfl, rfl, rfl, rfl, rfl, rfl⟩

/-! ### What waits in reset -/

/-- A change of `RST_N` shows no strobe (70_reset_and_hazards.md R290). -/
theorem driveRstN_out (b : Bool) (s : State) : (driveRstN b s).out = Outputs.silent := by
  unfold driveRstN
  split_ifs <;> rfl

/-- A change of `RST_N` leaves the schedule, which is the outside's (70_reset_and_hazards.md R290). -/
theorem driveRstN_inputs (b : Bool) (s : State) : (driveRstN b s).env.inputs = s.env.inputs := by
  unfold driveRstN
  split_ifs <;> rfl

/-- Taking the first item that does not meet `p` from a list leaves the items that do. -/
theorem filter_takeWhile_append {α : Type} {p : α → Bool} {l rest : List α} {x : α}
    (h : l.dropWhile p = x :: rest) (hx : p x = false) : (l.takeWhile p ++ rest).filter p = l.filter p := by
  conv_rhs => rw [← List.takeWhile_append_dropWhile (p := p) (l := l), h]
  rw [List.filter_append, List.filter_append, List.filter_cons_of_neg (by simp [hx])]

/-- In reset a step's outcome shows no strobe, and the transactions of the schedule are those that were on it
(70_reset_and_hazards.md R290; log entry 3). -/
theorem fetchInReset_spec (s : State) :
    (fetchInReset s).out = Outputs.silent ∧
      (fetchInReset s).env.inputs.filter Input.isTransaction =
        s.env.inputs.filter Input.isTransaction := by
  unfold fetchInReset
  dsimp only
  split
  case h_1 b rest h =>
    rw [driveRstN_out, driveRstN_inputs]
    exact ⟨rfl, filter_takeWhile_append h rfl⟩
  case h_2 v rest h => exact ⟨rfl, filter_takeWhile_append h rfl⟩
  case h_3 => exact ⟨rfl, rfl⟩

/-- In reset the ports settle: no word is performed (70_reset_and_hazards.md R290). -/
theorem fetch_of_inReset {s : State} (hr : s.env.rstN = false) : fetch s = .settled (fetchInReset s) := by
  simp [fetch, hr]

/-- Settles O9: what the ports settle to in reset, and the reset values at the rising change. -/
theorem resetGivesEveryElementItsValue : Obligations.ResetGivesEveryElementItsValue := by
  refine ⟨fun s hr => ?waiting, fun s rest hr hi => ?rising⟩
  case waiting =>
    obtain ⟨hout, hin⟩ := fetchInReset_spec s
    refine ⟨_, step_of_settled (fetch_of_inReset hr), ?_, ?_, ?_, hin⟩ <;> rw [hout] <;> rfl
  case rising =>
    refine ⟨_, step_of_settled (fetch_rstN hi), ?_⟩
    rw [driveRstN_of_change (by simp [hr])]
    simp [State.irq, regRead_resetElements]

/-! ### Two words offered together -/

/-- Out of reset, two words that head the schedule together go to the arbiter (70_reset_and_hazards.md R301). -/
theorem fetch_both {s : State} {e : BitVec 66} {h : BitVec 41} {rest : List Input}
    (hr : s.env.rstN = true) (hi : s.env.inputs = .both e h :: rest) : fetch s = arbitrate e h rest s := by
  simp [fetch, hr, hi]

/-- Settles O7, for either order of the free value. -/
theorem offeredTogetherAreBothPerformed : Obligations.OfferedTogetherAreBothPerformed := by
  intro s e h rest hr hi
  have hf := fetch_both hr hi
  rw [arbitrate] at hf
  split_ifs at hf ⊢ <;> exact step_of_offered hf

end Sys2Proof.Machine
